-- ==== Sys2Proof/Word.lean ====
section
/-! DEFINITION. The machine's word: a Nibble of 4 bits, a Bit, and the mask of 00_scope.md section 5. -/

namespace Sys2Proof

/-- A Nibble: "a 4-bit unsigned value, 0-15" (00_scope.md section 7). Every register, memory cell, ALU operand
and ALU result is one (R4, R7). -/
abbrev Nibble := BitVec 4

/-- A Bit: "boolean, conceptually one wire" (00_scope.md section 7). -/
abbrev Bit := Bool

/-- `mask(v) = v & 0xF = v mod 16` for any natural number `v` (00_scope.md section 5). -/
def mask (v : Nat) : Nibble := BitVec.ofNat 4 v

end Sys2Proof
end

