-- ==== Sys2Proof/Machine/Gates.lean ====
section
/-! DEFINITION. The combinational blocks the ALU is built from: gates, half adder, full adder, 4-bit chain
(40_gates_adders.md). All are pure (R77). -/

namespace Sys2Proof.Machine

/-- The gate AND as the exact Boolean function (R71; the spec's own decision D1, log entry 7). -/
def gateAnd (a b : Bit) : Bit := a && b

/-- The gate OR (R71). -/
def gateOr (a b : Bit) : Bit := a || b

/-- The gate XOR (R71). -/
def gateXor (a b : Bit) : Bit := a ^^ b

/-- The outputs of an adder: `sum` and `carry` (R72, R73, R78). -/
structure AdderOut where
  sum : Bit
  carry : Bit
deriving DecidableEq, Repr

/-- Half adder: one XOR gate and one AND gate (R72). -/
def halfAdder (a b : Bit) : AdderOut := ⟨gateXor a b, gateAnd a b⟩

/-- Full adder: two half adders in series, and an OR of their carries (R73). -/
def fullAdder (a b cin : Bit) : AdderOut :=
  let first := halfAdder a b
  let second := halfAdder first.sum cin
  ⟨second.sum, gateOr first.carry second.carry⟩

/-- The Nibble whose bits 0 to 3 are given, least significant first (00_scope.md section 5). -/
def nibbleOfBits (b0 b1 b2 b3 : Bit) : Nibble :=
  BitVec.ofNat 4 (b0.toNat + 2 * b1.toNat + 4 * b2.toNat + 8 * b3.toNat)

/-- The outputs of the 4-bit chain, with the carries of its four stages; the last is the chain's carry (R75). -/
structure ChainOut where
  result : Nibble
  stage0 : Bit
  stage1 : Bit
  stage2 : Bit
  carry : Bit
deriving DecidableEq, Repr

/-- The ripple-carry chain of four full adders, least significant bit first, with the first carry-in tied to 0
(R75). -/
def adderChain (a b : Nibble) : ChainOut :=
  let f0 := fullAdder (a.getLsbD 0) (b.getLsbD 0) false
  let f1 := fullAdder (a.getLsbD 1) (b.getLsbD 1) f0.carry
  let f2 := fullAdder (a.getLsbD 2) (b.getLsbD 2) f1.carry
  let f3 := fullAdder (a.getLsbD 3) (b.getLsbD 3) f2.carry
  { result := nibbleOfBits f0.sum f1.sum f2.sum f3.sum
    stage0 := f0.carry
    stage1 := f1.carry
    stage2 := f2.carry
    carry := f3.carry }

/-- One gate per bit position, four in all (R91). -/
def bitwiseGate (g : Bit → Bit → Bit) (a b : Nibble) : Nibble :=
  nibbleOfBits (g (a.getLsbD 0) (b.getLsbD 0)) (g (a.getLsbD 1) (b.getLsbD 1))
    (g (a.getLsbD 2) (b.getLsbD 2)) (g (a.getLsbD 3) (b.getLsbD 3))

end Sys2Proof.Machine
end

