-- ==== Sys2Proof/Machine/Alu.lean ====
section
/-! DEFINITION. The 4-bit ALU (41_alu.md): a pure function of two operands and an operation (R93). -/

namespace Sys2Proof.Machine

/-- The "closed set" of five operations (R86). It has no bit encoding (the spec's own decision D12). -/
inductive AluOp where
  | add
  | subtract
  | and
  | or
  | xor
deriving DecidableEq, Repr

/-- `ALUResult`: result, carry and zero (R85). -/
structure AluResult where
  result : Nibble
  carry : Bit
  zero : Bit
deriving DecidableEq, Repr

/-- The `zero` output goes with every result: `zero = (result == 0)` (R87). -/
def AluResult.of (result : Nibble) (carry : Bit) : AluResult := ⟨result, carry, result == 0⟩

/-- `neg(b) = mask((~b & 0xF) + 1)`: four inverters and a 4-bit increment whose carry out is dropped (R89; the case
`b = 0` is the spec's own decision D11, log entry 13). -/
def neg (b : Nibble) : Nibble := mask ((~~~b).toNat + 1)

/-- Add: the chain's outputs (R88). -/
def aluAdd (a b : Nibble) : AluResult := AluResult.of (adderChain a b).result (adderChain a b).carry

/-- `ALU(a, b, op)` on Nibbles. Subtract reuses Add on `neg(b)`, so its carry is the complement addition's and not a
borrow (R89, R90); And, Or, Xor have carry false (R91). -/
def alu (a b : Nibble) : AluOp → AluResult
  | .add => aluAdd a b
  | .subtract => aluAdd a (neg b)
  | .and => AluResult.of (bitwiseGate gateAnd a b) false
  | .or => AluResult.of (bitwiseGate gateOr a b) false
  | .xor => AluResult.of (bitwiseGate gateXor a b) false

/-- `compute(a, b, op)`: "Both operands are masked to 4 bits before use" (R85). -/
def aluCompute (a b : Nat) (op : AluOp) : AluResult := alu (mask a) (mask b) op

end Sys2Proof.Machine
end

