-- ==== Sys2Proof/Config.lean ====
section
/-! DEFINITION. The configuration: the one parameter the spec leaves open, `LDI_FLAGS` (R5, R122). -/

namespace Sys2Proof

/-- The three values of the OPEN parameter `LDI_FLAGS` (R122). -/
inductive LdiFlags where
  /-- `Z` and `C` unchanged. -/
  | none
  /-- `Z <- (k == 0)`, `C` unchanged. -/
  | zeroOnly
  /-- `Z <- (k == 0)`, `C <- false`. -/
  | zeroAndClearCarry
deriving DecidableEq, Repr, Inhabited

/-- The value of `LDI_FLAGS` in this machine. It has no body a proof could see, so a claim about `LDI` holds for
all three values, as R122 asks. DESIGN CHOICE of form (log entry 1): safe. -/
opaque Config.ldiFlags : LdiFlags

end Sys2Proof
end

