-- ==== Sys2Proof/Machine/State.lean ====
section
/-! DEFINITION. The state of the machine, whole (R10), the reasons a step can stop, and the state after reset
(R25, R200). -/

namespace Sys2Proof.Machine

/-- The memory: the cells that do not hold 0, as (address, program byte) pairs with addresses strictly rising. A
program byte holds a Nibble with a zero high half (R6). DESIGN CHOICE of representation (log entry 2): safe. -/
abbrev Memory := List Host.Cell

/-- The state of R10, "and nothing else is state". -/
structure State where
  /-- `ACC`, the accumulator (R12). -/
  acc : Nibble
  /-- `PC`, the program counter (R13, R14). -/
  pc : Nibble
  /-- `IR`, the instruction register: the opcode cell last fetched (R15). -/
  ir : Nibble
  /-- `Z`, the zero flag (R16). -/
  z : Bool
  /-- `C`, the carry flag (R16, R19). -/
  c : Bool
  /-- `HALTED`: false is Running, true is Halted (R21). -/
  halted : Bool
  /-- `CYCLES`, an unbounded natural number (R22). -/
  cycles : Nat
  /-- `M[0]` to `M[15]` (R24, R30). -/
  mem : Memory
deriving DecidableEq, Repr

/-- The Nibble registers of the Registers block (R10, R23). -/
inductive Reg where
  | acc
  | pc
  | ir
deriving DecidableEq, Repr

/-- The flags of the Registers block (R10, R23). -/
inductive FlagReg where
  | zero
  | carry
deriving DecidableEq, Repr

/-- The reasons a step can fault. There are none: "CPU-level conditions are not errors", no cycle can fault or
trap (R109, R185), so the type has no constructor. -/
inductive Fault where
deriving DecidableEq, Repr

/-- The reasons a step can be refused. -/
inductive Refusal where
  /-- Raised by an arm of `exec` whose instruction has no meaning yet. No arm raises it. Safe. -/
  | notModelled (mnemonic : String)
deriving DecidableEq, Repr

/-- The state after construction and after reset: every register 0, both flags false, Running, no cycle counted,
every cell 0 (R25, R200). -/
def State.reset : State where
  acc := 0
  pc := 0
  ir := 0
  z := false
  c := false
  halted := false
  cycles := 0
  mem := []

end Sys2Proof.Machine
end

