-- ==== Sys2Proof/Machine/Ops.lean ====
section
/-! DEFINITION. The named operations over memory and registers (20_memory.md, 10_state.md R23). There is no
operation that takes an exception or returns from one: the machine has none (R185, R189, R190). -/

namespace Sys2Proof.Machine

/-- What an address the list does not hold reads as: cells are "created zeroed" (R24, R25). -/
def Memory.unlisted : Nibble := 0

/-- The cell at address `a`: the low half of its byte, or what an unlisted address reads as (R33). -/
def Memory.lookup : Memory → Nat → Nibble
  | [], _ => Memory.unlisted
  | (b, w) :: m, a => if b = a then w.setWidth 4 else Memory.lookup m a

/-- `read` of the memory block at a Nibble address (R33). -/
def Memory.read (m : Memory) (a : Nibble) : Nibble := Memory.lookup m a.toNat

/-- `read(addr)` at an address of any width, which selects cell `mask(addr)` (R31, R33). -/
def Memory.readWide (m : Memory) (addr : Nat) : Nibble := Memory.read m (mask addr)

/-- Takes every entry of address `a` out of the list. -/
def Memory.erase : Memory → Nat → Memory
  | [], _ => []
  | (b, w) :: m, a => if b = a then Memory.erase m a else (b, w) :: Memory.erase m a

/-- Puts an entry before the first one of a greater address. -/
def Memory.insert : Memory → Nat → BitVec 8 → Memory
  | [], a, v => [(a, v)]
  | (b, w) :: m, a, v => if a < b then (a, v) :: (b, w) :: m else (b, w) :: Memory.insert m a v

/-- `write` of the memory block at a Nibble address: changes that cell and no other (R32). Writing what an unlisted
address reads as leaves no entry. -/
def Memory.write (m : Memory) (a v : Nibble) : Memory :=
  if v = Memory.unlisted then Memory.erase m a.toNat
  else Memory.insert (Memory.erase m a.toNat) a.toNat (v.setWidth 8)

/-- `write(addr, value)` for an address and a value of any width: `M[mask(addr)] <- mask(value)` (R31, R32). -/
def Memory.writeWide (m : Memory) (addr value : Nat) : Memory := Memory.write m (mask addr) (mask value)

/-- `clear()` sets every cell to 0 (R35). -/
def Memory.clear : Memory := []

/-- Stores a list of elements at consecutive addresses from `i`, each masked. -/
def Memory.storeFrom (m : Memory) (i : Nat) : List Nat → Memory
  | [] => m
  | b :: bytes => Memory.storeFrom (Memory.writeWide m i b) (i + 1) bytes

/-- `load_program(bytes)`: "copies up to 16 bytes starting at address 0, silently truncating longer programs"
(R34). -/
def Memory.loadProgram (m : Memory) (bytes : List Nat) : Memory := Memory.storeFrom m 0 (bytes.take 16)

/-- Every entry has an address of the machine from `lo` up, the addresses rise strictly, every byte is a Nibble, and
none is what an unlisted address reads as. -/
def Memory.wfFrom (lo : Nat) : Memory → Bool
  | [] => true
  | (a, w) :: m =>
    decide (lo ≤ a) && decide (a < 16) && decide (w.toNat < 16) && (w.setWidth 4 != Memory.unlisted)
      && Memory.wfFrom (a + 1) m

/-- The canonical form of a memory: equal contents are equal lists (log entry 2). -/
def Memory.wf (m : Memory) : Bool := Memory.wfFrom 0 m

/-- Writes of one state component. -/
def State.setAcc (s : State) (v : Nibble) : State := { s with acc := v }
def State.setPc (s : State) (v : Nibble) : State := { s with pc := v }
def State.setIr (s : State) (v : Nibble) : State := { s with ir := v }
def State.setZ (s : State) (v : Bool) : State := { s with z := v }
def State.setC (s : State) (v : Bool) : State := { s with c := v }
def State.setHalted (s : State) (v : Bool) : State := { s with halted := v }
def State.setMem (s : State) (m : Memory) : State := { s with mem := m }

/-- The count of one cycle begun in the Running state (R107). -/
def State.countCycle (s : State) : State := { s with cycles := s.cycles + 1 }

/-- `MemRead(addr, 1)` (R33). -/
def State.memRead (s : State) (a : Nibble) : Nibble := s.mem.read a

/-- `MemWrite(addr, 1, v)` (R32). -/
def State.memWrite (s : State) (a v : Nibble) : State := s.setMem (s.mem.write a v)

/-- Read of a Nibble register (R23). -/
def State.readReg (s : State) : Reg → Nibble
  | .acc => s.acc
  | .pc => s.pc
  | .ir => s.ir

/-- `write(r, v)` stores `mask(v)` (R23). -/
def State.writeReg (s : State) (r : Reg) (v : Nat) : State :=
  match r with
  | .acc => s.setAcc (mask v)
  | .pc => s.setPc (mask v)
  | .ir => s.setIr (mask v)

/-- `inc(r) = mask(r + 1)` (R23). -/
def State.incReg (s : State) (r : Reg) : State := s.writeReg r ((s.readReg r).toNat + 1)

/-- `dec(r) = mask(r + 15)` (R23). -/
def State.decReg (s : State) (r : Reg) : State := s.writeReg r ((s.readReg r).toNat + 15)

/-- `clear(r) = 0` (R23). -/
def State.clearReg (s : State) (r : Reg) : State := s.writeReg r 0

/-- Read of a flag (R23). -/
def State.readFlag (s : State) : FlagReg → Bool
  | .zero => s.z
  | .carry => s.c

/-- Write of a flag (R23). -/
def State.writeFlag (s : State) (f : FlagReg) (v : Bool) : State :=
  match f with
  | .zero => s.setZ v
  | .carry => s.setC v

/-- "For a flag, `clear` gives false" (R23). -/
def State.clearFlag (s : State) (f : FlagReg) : State := s.writeFlag f false

/-- The advancement past the opcode: one wrapping increment of `PC` (R14, R106). -/
def State.advanceOne (s : State) : State := s.incReg .pc

/-- The advancement past the opcode and its operand cell: two wrapping increments of `PC` (R106). -/
def State.advanceTwo (s : State) : State := (s.incReg .pc).incReg .pc

end Sys2Proof.Machine
end

