-- ==== Sys2Proof/Machine/Flags.lean ====
section
/-! DEFINITION. Every flag computation (R16, R17, R122). -/

namespace Sys2Proof.Machine

/-- `update_flags(v, c)`: `Z <- (v == 0); C <- c`, both overwritten (R16). -/
def State.updateFlags (s : State) (v : Nibble) (c : Bool) : State := (s.setZ (v == 0)).setC c

/-- The flags of an ALU instruction: the ALU's `zero` and `carry` outputs (R16, R93). -/
def State.aluFlags (s : State) (r : AluResult) : State := (s.setZ r.zero).setC r.carry

/-- The flag of `LOAD`: `Z` from the loaded value, `C` kept (R17, R120). -/
def State.loadFlags (s : State) (v : Nibble) : State := s.setZ (v == 0)

/-- `Z` after `LDI k` under each value of `LDI_FLAGS` (R122). -/
def ldiZero (p : LdiFlags) (k : Nibble) (z : Bool) : Bool :=
  match p with
  | .none => z
  | .zeroOnly => k == 0
  | .zeroAndClearCarry => k == 0

/-- `C` after `LDI k` under each value of `LDI_FLAGS` (R122). -/
def ldiCarry (p : LdiFlags) (c : Bool) : Bool :=
  match p with
  | .none => c
  | .zeroOnly => c
  | .zeroAndClearCarry => false

/-- `ldi_flags(k)` (R122). -/
def State.ldiFlags (s : State) (p : LdiFlags) (k : Nibble) : State :=
  (s.setZ (ldiZero p k s.z)).setC (ldiCarry p s.c)

end Sys2Proof.Machine
end

