-- ==== Sys2Proof/Machine/Operands.lean ====
section
/-! DEFINITION. The operand forms (R54): the cell an address names, an immediate, and the constant 1 of INC and DEC
(R92). A jump target is the operand itself. -/

namespace Sys2Proof.Machine

/-- Where an instruction's second value comes from. -/
inductive Source where
  /-- Direct addressing, the only addressing mode: the cell at the operand (R54). -/
  | cell (k : Nibble)
  /-- The operand itself, as data (R122). -/
  | immediate (k : Nibble)
  /-- The constant 1 (R92). -/
  | one
deriving DecidableEq, Repr

/-- The value of a source operand. -/
def State.sourceValue (s : State) : Source → Nibble
  | .cell k => s.memRead k
  | .immediate k => k
  | .one => 1

end Sys2Proof.Machine
end

