-- ==== Sys2Proof/Machine/ArithLogic.lean ====
section
/-! DEFINITION. The meanings of ADD, SUB, AND, OR, XOR, INC, DEC, CMP (44_arith_logic.md). In all of them the
accumulator is the ALU's operand `a` (R92; the spec's own decision D25, log entry 15). -/

namespace Sys2Proof.Machine

/-- An ALU instruction that keeps its result: `ACC` and both flags from the ALU (44_arith_logic.md preamble). -/
def State.aluToAcc (s : State) (op : AluOp) (b : Source) : State :=
  let r := alu s.acc (s.sourceValue b) op
  (s.setAcc r.result).aluFlags r

/-- An ALU instruction that "discards the result nibble, keeping only the flags" (R92, R137). -/
def State.aluFlagsOnly (s : State) (op : AluOp) (b : Source) : State :=
  s.aluFlags (alu s.acc (s.sourceValue b) op)

/-- `ADD k` (R130). -/
def execAdd (k : Nibble) (s : State) : Host.Outcome State Fault Refusal :=
  .next (s.aluToAcc .add (.cell k)).advanceTwo

/-- `SUB k` (R131). -/
def execSub (k : Nibble) (s : State) : Host.Outcome State Fault Refusal :=
  .next (s.aluToAcc .subtract (.cell k)).advanceTwo

/-- `AND k` (R132). -/
def execAnd (k : Nibble) (s : State) : Host.Outcome State Fault Refusal :=
  .next (s.aluToAcc .and (.cell k)).advanceTwo

/-- `OR k` (R133). -/
def execOr (k : Nibble) (s : State) : Host.Outcome State Fault Refusal :=
  .next (s.aluToAcc .or (.cell k)).advanceTwo

/-- `XOR k` (R134). -/
def execXor (k : Nibble) (s : State) : Host.Outcome State Fault Refusal :=
  .next (s.aluToAcc .xor (.cell k)).advanceTwo

/-- `INC`: `Add(ACC, 1)` (R135). -/
def execInc (s : State) : Host.Outcome State Fault Refusal :=
  .next (s.aluToAcc .add .one).advanceOne

/-- `DEC`: `Subtract(ACC, 1)` (R136). -/
def execDec (s : State) : Host.Outcome State Fault Refusal :=
  .next (s.aluToAcc .subtract .one).advanceOne

/-- `CMP k` (R137). -/
def execCmp (k : Nibble) (s : State) : Host.Outcome State Fault Refusal :=
  .next (s.aluFlagsOnly .subtract (.cell k)).advanceTwo

end Sys2Proof.Machine
end

