-- ==== Sys2Proof/Machine/Control.lean ====
section
/-! DEFINITION. The meanings of NOP, JUMP, JZ, JNZ, HALT (45_control.md). -/

namespace Sys2Proof.Machine

/-- A jump: `PC` is the operand if the condition holds; otherwise the operand cell is skipped (R106, R147, R148). -/
def State.jumpIf (s : State) (condition : Bool) (k : Nibble) : State :=
  if condition then s.setPc k else s.advanceTwo

/-- `NOP` (R145). -/
def execNop (s : State) : Host.Outcome State Fault Refusal := .next s.advanceOne

/-- `JUMP k` (R146). -/
def execJump (k : Nibble) (s : State) : Host.Outcome State Fault Refusal := .next (s.setPc k)

/-- `JZ k`: jumps when the zero flag is set (R147; the spec's own decision D26, log entry 15). -/
def execJz (k : Nibble) (s : State) : Host.Outcome State Fault Refusal := .next (s.jumpIf s.z k)

/-- `JNZ k`: jumps when the zero flag is clear (R148). -/
def execJnz (k : Nibble) (s : State) : Host.Outcome State Fault Refusal := .next (s.jumpIf (!s.z) k)

/-- `HALT`: "sets halted and returns without further PC change" (R149). -/
def execHalt (s : State) : Host.Outcome State Fault Refusal := .next (s.setHalted true)

end Sys2Proof.Machine
end

