-- ==== Sys2Proof/Machine/DataMovement.lean ====
section
/-! DEFINITION. The meanings of LOAD, STORE, LDI (43_data_movement.md). -/

namespace Sys2Proof.Machine

/-- `LOAD k` (R120). -/
def execLoad (k : Nibble) (s : State) : Host.Outcome State Fault Refusal :=
  let v := s.sourceValue (.cell k)
  .next ((s.setAcc v).loadFlags v).advanceTwo

/-- `STORE k` (R121). -/
def execStore (k : Nibble) (s : State) : Host.Outcome State Fault Refusal :=
  .next (s.memWrite k s.acc).advanceTwo

/-- `LDI k` under one value of `LDI_FLAGS` (R122). -/
def State.loadImmediate (s : State) (p : LdiFlags) (k : Nibble) : State :=
  ((s.setAcc (s.sourceValue (.immediate k))).ldiFlags p k).advanceTwo

/-- `LDI k` under the machine's value of `LDI_FLAGS` (R122). -/
def execLdi (k : Nibble) (s : State) : Host.Outcome State Fault Refusal :=
  .next (s.loadImmediate Config.ldiFlags k)

end Sys2Proof.Machine
end

