-- ==== Sys2Proof/Syntax.lean ====
section
/-! DEFINITION. The instruction set as syntax: the 16 decoded instructions (R56), and the assembler's parsed
line (R155). -/

namespace Sys2Proof

/-- The decoded form: "tagged variant over the 16 opcodes", `k` a Nibble (R56). One constructor per row of
spec/opcode_table.json, in the table's order. -/
inductive Instr where
  | nop
  | load (k : Nibble)
  | store (k : Nibble)
  | add (k : Nibble)
  | sub (k : Nibble)
  | and (k : Nibble)
  | or (k : Nibble)
  | xor (k : Nibble)
  | jump (k : Nibble)
  | jz (k : Nibble)
  | ldi (k : Nibble)
  | inc
  | dec
  | cmp (k : Nibble)
  | jnz (k : Nibble)
  | halt
deriving DecidableEq, Repr

/-- Source text, as a list of characters. -/
abbrev Text := List Char

/-- `AsmInstruction` = "opcode: string mnemonic, operand: optional Nibble" (R155). The mnemonic is the token as
the source writes it, an alias included. -/
structure AsmInstruction where
  opcode : Text
  operand : Option Nibble
deriving DecidableEq, Repr

end Sys2Proof
end

