-- ==== Sys2Proof/Machine/Dispatch.lean ====
section
/-! DEFINITION. Execute (R105): one arm per instruction, each one call of its meaning. -/

namespace Sys2Proof.Machine

def exec (i : Instr) (s : State) : Host.Outcome State Fault Refusal :=
  match i with
  | .nop => Sys2Proof.Machine.execNop s
  | .load k => Sys2Proof.Machine.execLoad k s
  | .store k => Sys2Proof.Machine.execStore k s
  | .add k => Sys2Proof.Machine.execAdd k s
  | .sub k => Sys2Proof.Machine.execSub k s
  | .and k => Sys2Proof.Machine.execAnd k s
  | .or k => Sys2Proof.Machine.execOr k s
  | .xor k => Sys2Proof.Machine.execXor k s
  | .jump k => Sys2Proof.Machine.execJump k s
  | .jz k => Sys2Proof.Machine.execJz k s
  | .ldi k => Sys2Proof.Machine.execLdi k s
  | .inc => Sys2Proof.Machine.execInc s
  | .dec => Sys2Proof.Machine.execDec s
  | .cmp k => Sys2Proof.Machine.execCmp k s
  | .jnz k => Sys2Proof.Machine.execJnz k s
  | .halt => Sys2Proof.Machine.execHalt s

end Sys2Proof.Machine
end

