-- ==== Sys2Proof/Decode.lean ====
section
/-! DEFINITION. The decoder and the encoder of cells (30_encoding.md), the mnemonic table (R161), and the host's
entry to the decoder. -/

namespace Sys2Proof

/-- The opcodes that take an operand cell: all but `0x0`, `0xB`, `0xC`, `0xF` (R55). -/
def needsOperand (o : Nibble) : Bool :=
  !(o == 0x0#4 || o == 0xB#4 || o == 0xC#4 || o == 0xF#4)

/-- `decode(o, k)`: the instruction of the opcode map R52 for opcode `o`, carrying the next cell `k` in format K and
ignoring it in format N. Total: every pair of Nibbles decodes (R57, R60). The last arm is opcode `0xF`: a Nibble leaves
no other value for it. -/
def decode (o k : Nibble) : Instr :=
  match o.toNat with
  | 0x0 => .nop
  | 0x1 => .load k
  | 0x2 => .store k
  | 0x3 => .add k
  | 0x4 => .sub k
  | 0x5 => .and k
  | 0x6 => .or k
  | 0x7 => .xor k
  | 0x8 => .jump k
  | 0x9 => .jz k
  | 0xA => .ldi k
  | 0xB => .inc
  | 0xC => .dec
  | 0xD => .cmp k
  | 0xE => .jnz k
  | _ => .halt

/-- Why a list of cells holds no whole instruction. Within the CPU neither can happen: both cells of a fetch
exist at every address (R54). -/
inductive DecodeError where
  /-- There is no cell to read an opcode from. -/
  | noOpcodeCell
  /-- The opcode is one of the twelve two-cell ones and there is no second cell. -/
  | noOperandCell
deriving DecidableEq, Repr

/-- The first instruction of a list of cells, with the cells after it. Format N takes one cell and leaves the next
to the following instruction (R51, R55). -/
def decodeCells : List Nibble → Except DecodeError (Instr × List Nibble)
  | [] => .error .noOpcodeCell
  | o :: rest =>
    if needsOperand o then
      match rest with
      | [] => .error .noOperandCell
      | k :: rest => .ok (decode o k, rest)
    else .ok (decode o 0, rest)

/-- Puts `i` before the instructions of a decoded rest. -/
def consDecoded (i : Instr) : Except DecodeError (List Instr) → Except DecodeError (List Instr)
  | .ok is => .ok (i :: is)
  | .error e => .error e

/-- A whole list of cells read as instructions one after another, refused by name where it ends inside a two-cell
instruction. -/
def decodeStream : List Nibble → Except DecodeError (List Instr)
  | [] => .ok []
  | [o] => if needsOperand o then .error .noOperandCell else .ok [decode o 0]
  | o :: k :: rest =>
    if needsOperand o then consDecoded (decode o k) (decodeStream rest)
    else consDecoded (decode o 0) (decodeStream (k :: rest))

/-- The cells of the host's table word, numbered as spec/opcode_table.json numbers them: bits 3..0 are the cell at
`PC`, bits 7..4 the cell after it; bits from `nbits` up are 0. DESIGN CHOICE (log entry 3): safe. -/
def wordCells (nbits w : Nat) : Nibble × Nibble :=
  (mask (w % 2 ^ nbits), mask (w % 2 ^ nbits / 16))

/-- The instruction the decoder reads from a table word. -/
def decodeTableWord (nbits w : Nat) : Option Instr :=
  match decodeCells [(wordCells nbits w).1, (wordCells nbits w).2] with
  | .ok (i, _) => some i
  | .error _ => none

/-- The opcode cell of an instruction (R52). -/
def Instr.opcode : Instr → Nibble
  | .nop => 0x0
  | .load _ => 0x1
  | .store _ => 0x2
  | .add _ => 0x3
  | .sub _ => 0x4
  | .and _ => 0x5
  | .or _ => 0x6
  | .xor _ => 0x7
  | .jump _ => 0x8
  | .jz _ => 0x9
  | .ldi _ => 0xA
  | .inc => 0xB
  | .dec => 0xC
  | .cmp _ => 0xD
  | .jnz _ => 0xE
  | .halt => 0xF

/-- The operand an instruction carries, if its format is K (R51, R56). -/
def Instr.operand : Instr → Option Nibble
  | .nop => none
  | .load k => some k
  | .store k => some k
  | .add k => some k
  | .sub k => some k
  | .and k => some k
  | .or k => some k
  | .xor k => some k
  | .jump k => some k
  | .jz k => some k
  | .ldi k => some k
  | .inc => none
  | .dec => none
  | .cmp k => some k
  | .jnz k => some k
  | .halt => none

/-- `encode(i)`: `[o]` for format N, `[o, k]` for format K (R58). -/
def encode (i : Instr) : List Nibble := i.opcode :: i.operand.toList

/-- The mnemonic of an opcode cell, the table's spelling and never an alias (R52, R167). The last arm is `0xF`. -/
def mnemonicOf (o : Nibble) : String :=
  match o.toNat with
  | 0x0 => "NOP"
  | 0x1 => "LOAD"
  | 0x2 => "STORE"
  | 0x3 => "ADD"
  | 0x4 => "SUB"
  | 0x5 => "AND"
  | 0x6 => "OR"
  | 0x7 => "XOR"
  | 0x8 => "JUMP"
  | 0x9 => "JZ"
  | 0xA => "LDI"
  | 0xB => "INC"
  | 0xC => "DEC"
  | 0xD => "CMP"
  | 0xE => "JNZ"
  | _ => "HALT"

/-- The spellings the assembler takes, with their opcode byte: sixteen mnemonics and four aliases (R161). -/
def mnemonicTable : List (String × Nibble) :=
  [("NOP", 0x0), ("LOAD", 0x1), ("LD", 0x1), ("STORE", 0x2), ("ST", 0x2), ("ADD", 0x3), ("SUB", 0x4),
   ("AND", 0x5), ("OR", 0x6), ("XOR", 0x7), ("JUMP", 0x8), ("JMP", 0x8), ("JZ", 0x9), ("LDI", 0xA),
   ("INC", 0xB), ("DEC", 0xC), ("CMP", 0xD), ("JNZ", 0xE), ("HALT", 0xF), ("HLT", 0xF)]

/-- The opcode byte a mnemonic token stands for, if the table of R161 has the token. -/
def opcodeOfMnemonic (t : Text) : Option Nibble :=
  (mnemonicTable.find? fun e => e.1.toList == t).map Prod.snd

end Sys2Proof
end

