-- ==== Sys2Proof/Machine/Fetch.lean ====
section
/-! DEFINITION. Fetch and decode (R103, R104), and the placing of cells where the next fetch reads them. -/

namespace Sys2Proof.Machine

/-- The address of the operand cell, `mask(PC + 1)` (R54, R104). -/
def State.operandAddress (s : State) : Nibble := mask (s.pc.toNat + 1)

/-- The instruction at `PC`: the opcode cell and, for a two-cell opcode, the cell after it (R103, R104). The cell
after it is read in any case: `decode` ignores it in format N, and a read has no effect (R33, log entry 5). -/
def State.fetchInstr (s : State) : Instr := decode (s.memRead s.pc) (s.memRead s.operandAddress)

/-- What a cycle of a Running CPU writes before execute: `CYCLES` (R107) and `IR` (R103). -/
def State.beginCycle (s : State) : State := s.countCycle.setIr (s.memRead s.pc)

/-- Two cells stored where the next fetch reads its opcode and its operand, on a Running CPU (log entry 3). -/
def State.placeAtFetch (s : State) (cells : Nibble × Nibble) : State :=
  ((s.memWrite s.pc cells.1).memWrite s.operandAddress cells.2).setHalted false

end Sys2Proof.Machine
end

