-- ==== Sys2Proof/Machine/Step.lean ====
section
/-! DEFINITION. One cycle (R101, R102, R108), and the host's placing of one instruction. -/

namespace Sys2Proof.Machine

/-- `cycle()`: nothing in the Halted state (R101); otherwise fetch, decode and execute of one instruction (R102). -/
def step (s : State) : Host.Outcome State Fault Refusal :=
  if s.halted then .next s else exec s.fetchInstr s.beginCycle

/-- The host's table word stored where `step` fetches its next instruction; the CPU is made Running, since a Halted
one fetches nothing (log entry 3). -/
def State.withFetchWord (s : State) (nbits w : Nat) : State := s.placeAtFetch (wordCells nbits w)

end Sys2Proof.Machine
end

