-- ==== Sys2Proof/Machine/Assembler.lean ====
section
/-! DEFINITION. The assembler (46_assembler.md R155 to R166): source text to a byte stream, or to one error, or
refused. It is a tool, no part of the running machine. -/

namespace Sys2Proof.Machine

/-- The four assembly errors, complete (R164). -/
inductive AsmErrorKind where
  /-- The operand token does not match the grammar of R163. -/
  | invalidLiteral
  /-- The operand token matches the grammar and its value is above 15. -/
  | operandOutOfRange
  /-- The first token is not in the table of R161 and no case variant of an entry. -/
  | unknownMnemonic
  /-- The mnemonic requires an operand and the line has one token. -/
  | missingOperand
deriving DecidableEq, Repr

/-- Why the spec gives a source no outcome (93_implementation_defined.md I2 to I5). -/
inductive AsmRefusal where
  /-- I5: white space other than space, tab, carriage return, line feed. -/
  | otherWhiteSpace
  /-- I3: three or more tokens on an instruction line (R160). -/
  | tooManyTokens
  /-- I3: an operand given to a mnemonic that takes none (R160). -/
  | unexpectedOperand
  /-- I2: a token that equals a table mnemonic only after case folding (R161). -/
  | caseVariant
  /-- I4: a label line with an empty name (R158). -/
  | emptyLabel
  /-- I4: a label name defined twice (R158). -/
  | duplicateLabel
deriving DecidableEq, Repr

/-- What one line of source is. -/
inductive Line where
  | blank
  | label (name : Text)
  | instr (i : AsmInstruction)
  | error (kind : AsmErrorKind)
  | refused (reason : AsmRefusal)
deriving DecidableEq, Repr

/-- Cuts a text at the characters that satisfy `p`, which it drops. -/
def splitWhere (p : Char → Bool) : Text → List Text
  | [] => [[]]
  | c :: cs =>
    if p c then [] :: splitWhere p cs
    else
      match splitWhere p cs with
      | [] => [[c]]
      | l :: ls => (c :: l) :: ls

/-- The lines of a source, cut at line feeds (R156). -/
def sourceLines (source : Text) : List Text := splitWhere (· == '\n') source

/-- The tokens of a line, cut at spaces and tabs (R160; the spec's own decision D17). -/
def lineTokens (line : Text) : List Text :=
  (splitWhere (fun c => c == ' ' || c == '\t') line).filter fun t => !t.isEmpty

/-- "`;` starts a line comment" (R157). -/
def stripComment (line : Text) : Text := line.takeWhile (· != ';')

/-- The white space trimmed at both ends of a line: space, tab, carriage return (R156, D17). -/
def isTrimmed (c : Char) : Bool := c == ' ' || c == '\t' || c == '\r'

/-- A text without the white space at its ends (R156, R157). -/
def trimText (t : Text) : Text := ((t.dropWhile isTrimmed).reverse.dropWhile isTrimmed).reverse

/-- White space the tokenising decision does not cover, to be treated as refused (D17, I5). The set is Unicode's
White_Space less space, tab, carriage return and line feed. PRESUMED (log entry 19): unsafe only for claims about
such sources. -/
def isOtherWhiteSpace (c : Char) : Bool :=
  let n := c.toNat
  n == 0x0B || n == 0x0C || n == 0x85 || n == 0xA0 || n == 0x1680 || (0x2000 ≤ n && n ≤ 0x200A) ||
    n == 0x2028 || n == 0x2029 || n == 0x202F || n == 0x205F || n == 0x3000

/-- Case folding to capitals: ASCII letters, and the three characters outside ASCII that fold to letters of a
mnemonic, long s and the two st ligatures. DEDUCED (log entry 19): safe. -/
def foldCase (t : Text) : Text :=
  t.flatMap fun c =>
    if c.toNat == 0x17F then ['S']
    else if c.toNat == 0xFB05 || c.toNat == 0xFB06 then ['S', 'T']
    else [c.toUpper]

/-- A decimal digit's value (R163). -/
def decimalDigit (c : Char) : Option Nat :=
  if '0'.toNat ≤ c.toNat && c.toNat ≤ '9'.toNat then some (c.toNat - '0'.toNat) else none

/-- A hexadecimal digit's value, either case (R163). -/
def hexDigit (c : Char) : Option Nat :=
  if '0'.toNat ≤ c.toNat && c.toNat ≤ '9'.toNat then some (c.toNat - '0'.toNat)
  else if 'A'.toNat ≤ c.toNat && c.toNat ≤ 'F'.toNat then some (c.toNat - 'A'.toNat + 10)
  else if 'a'.toNat ≤ c.toNat && c.toNat ≤ 'f'.toNat then some (c.toNat - 'a'.toNat + 10)
  else none

/-- The number whose digits follow the digits of `value`, most significant first. -/
def digitsFrom (base : Nat) (digit : Char → Option Nat) (value : Nat) : Text → Option Nat
  | [] => some value
  | c :: cs =>
    match digit c with
    | none => none
    | some d => digitsFrom base digit (value * base + d) cs

/-- One or more digits (R163). -/
def digits (base : Nat) (digit : Char → Option Nat) (t : Text) : Option Nat :=
  if t.isEmpty then none else digitsFrom base digit 0 t

/-- The value of an operand token that matches `operand = hex | dec` (R163; the spec's own decision D18). -/
def literalValue : Text → Option Nat
  | '0' :: 'x' :: ds => digits 16 hexDigit ds
  | t => digits 10 decimalDigit t

/-- An operand token: the assembler rejects where the CPU masks (R163, R164). -/
def parseOperand (t : Text) : Except AsmErrorKind Nibble :=
  match literalValue t with
  | none => .error .invalidLiteral
  | some v => if v ≤ 15 then .ok (mask v) else .error .operandOutOfRange

/-- A line of the two-byte mnemonic `m` with the operand token `t` (R163, R164). -/
def parseOperandLine (m t : Text) : Line :=
  match parseOperand t with
  | .ok k => .instr ⟨m, some k⟩
  | .error e => .error e

/-- An instruction line by its tokens: the token count first, then unknown mnemonic, missing operand, invalid
literal, out of range (R160, R161, R164, R165). -/
def parseTokens : List Text → Line
  | [] => .blank
  | [m] =>
    match opcodeOfMnemonic m with
    | none => if (opcodeOfMnemonic (foldCase m)).isSome then .refused .caseVariant else .error .unknownMnemonic
    | some o => if needsOperand o then .error .missingOperand else .instr ⟨m, none⟩
  | [m, t] =>
    match opcodeOfMnemonic m with
    | none => if (opcodeOfMnemonic (foldCase m)).isSome then .refused .caseVariant else .error .unknownMnemonic
    | some o => if needsOperand o then parseOperandLine m t else .refused .unexpectedOperand
  | _ => .refused .tooManyTokens

/-- A label line, its text without the final `:` (R158). -/
def parseLabel (beforeColon : Text) : Line :=
  let name := trimText beforeColon
  if name.isEmpty then .refused .emptyLabel else .label name

/-- One line of source, comment and outer white space taken off (R157, R158, R160). -/
def classifyLine (line : Text) : Line :=
  let code := stripComment line
  if code.any isOtherWhiteSpace then .refused .otherWhiteSpace
  else
    let body := trimText code
    if body.isEmpty then .blank
    else if body.getLast? == some ':' then parseLabel body.dropLast
    else parseTokens (lineTokens body)

/-- The bytes a mnemonic accounts for: 1 without operand, 2 otherwise (R162). -/
def asmSize (i : AsmInstruction) : Nat :=
  match opcodeOfMnemonic i.opcode with
  | none => 0
  | some o => if needsOperand o then 2 else 1

/-- What phase 1 records: the instruction lines with the offset of each, the label table, and the offset after the
last line (R155, R158, R162). -/
structure FirstPass where
  instructions : List (Nat × AsmInstruction)
  labels : List (Text × Nat)
  endOffset : Nat
deriving DecidableEq, Repr

/-- Phase 1 from a byte offset (R158, R162). -/
def firstPass (offset : Nat) : List Line → FirstPass
  | [] => ⟨[], [], offset⟩
  | .instr i :: ls =>
    let rest := firstPass (offset + asmSize i) ls
    { rest with instructions := (offset, i) :: rest.instructions }
  | .label name :: ls =>
    let rest := firstPass offset ls
    { rest with labels := (name, offset) :: rest.labels }
  | .blank :: ls => firstPass offset ls
  | .error _ :: ls => firstPass offset ls
  | .refused _ :: ls => firstPass offset ls

/-- The bytes of one instruction: the opcode byte, then the operand of a two-byte one (R165). -/
def emitInstruction (i : AsmInstruction) : List Nibble :=
  match opcodeOfMnemonic i.opcode with
  | none => []
  | some o => if needsOperand o then o :: i.operand.toList else [o]

/-- Phase 2 (R155, R165). -/
def secondPass (is : List AsmInstruction) : List Nibble := is.flatMap emitInstruction

/-- The three outcomes of assembly, kept apart (46_assembler.md preamble). -/
inductive AsmOutcome where
  /-- The byte stream, and the label table as an auxiliary result (R159). -/
  | ok (bytes : List Nibble) (labels : List (Text × Nat))
  /-- One error with its 1-based line number, and no bytes (R164). -/
  | error (line : Nat) (kind : AsmErrorKind)
  /-- The spec gives the source neither bytes nor an error. -/
  | refused (reason : AsmRefusal)
deriving DecidableEq, Repr

/-- The names of the labels a source defines, in order. -/
def labelNames : List Line → List Text
  | [] => []
  | .label name :: ls => name :: labelNames ls
  | .blank :: ls => labelNames ls
  | .instr _ :: ls => labelNames ls
  | .error _ :: ls => labelNames ls
  | .refused _ :: ls => labelNames ls

/-- The reason of the first refused line. -/
def refusedLine : List Line → Option AsmRefusal
  | [] => none
  | .refused reason :: _ => some reason
  | .blank :: ls => refusedLine ls
  | .label _ :: ls => refusedLine ls
  | .instr _ :: ls => refusedLine ls
  | .error _ :: ls => refusedLine ls

/-- "A source with a refused line anywhere in it ... is refused as a whole" (R165); a label name defined twice refuses
it too (R158). -/
def sourceRefusal (ls : List Line) : Option AsmRefusal :=
  match refusedLine ls with
  | some reason => some reason
  | none => if (labelNames ls).Nodup then none else some .duplicateLabel

/-- The error of the lowest-numbered bad line, the first line having number `n` (R165). -/
def firstError (n : Nat) : List Line → Option (Nat × AsmErrorKind)
  | [] => none
  | .error kind :: _ => some (n, kind)
  | .blank :: ls => firstError (n + 1) ls
  | .label _ :: ls => firstError (n + 1) ls
  | .instr _ :: ls => firstError (n + 1) ls
  | .refused _ :: ls => firstError (n + 1) ls

/-- Assembly of classified lines. -/
def assembleLines (ls : List Line) : AsmOutcome :=
  match sourceRefusal ls with
  | some reason => .refused reason
  | none =>
    match firstError 1 ls with
    | some (n, kind) => .error n kind
    | none => .ok (secondPass ((firstPass 0 ls).instructions.map Prod.snd)) (firstPass 0 ls).labels

/-- The assembler (R155). -/
def assemble (source : Text) : AsmOutcome := assembleLines ((sourceLines source).map classifyLine)

end Sys2Proof.Machine
end

