-- ==== Sys2Proof/Machine/Disassembler.lean ====
section
/-! DEFINITION. The disassembler (R167) and the text that assembles back to a record (R168). -/

namespace Sys2Proof.Machine

/-- A record: "address, mnemonic, and operand (if the instruction takes one and a second byte exists)" (R167). -/
structure Record where
  address : Nat
  mnemonic : String
  operand : Option Nibble
deriving DecidableEq, Repr

/-- The linear sweep over a stream whose first element is element `i` (R167). -/
def sweepFrom (i : Nat) : List Nibble → List Record
  | [] => []
  | [o] => [⟨i, mnemonicOf o, none⟩]
  | o :: k :: rest =>
    if needsOperand o then ⟨i, mnemonicOf o, some k⟩ :: sweepFrom (i + 2) rest
    else ⟨i, mnemonicOf o, none⟩ :: sweepFrom (i + 1) (k :: rest)

/-- The disassembler: `none` where an element above 15 makes the input refused (R167, I6; the spec's own decision
D23, log entry 20). -/
def disassemble (bytes : List Nat) : Option (List Record) :=
  if bytes.all (· < 16) then some (sweepFrom 0 (bytes.map mask)) else none

/-- The record an instruction line comes back as: its alias replaced by the table mnemonic (R168). -/
def recordOf (entry : Nat × AsmInstruction) : Record :=
  match opcodeOfMnemonic entry.2.opcode with
  | none => ⟨entry.1, "", entry.2.operand⟩
  | some o => ⟨entry.1, mnemonicOf o, entry.2.operand⟩

/-- A Nibble as a decimal literal (R163). -/
def decimalText (k : Nibble) : Text :=
  if k.toNat < 10 then [Char.ofNat (48 + k.toNat)] else ['1', Char.ofNat (48 + (k.toNat - 10))]

/-- "the text `MNEMONIC` or `MNEMONIC operand`" of a record, as a source line with its line feed (R168). -/
def recordText (r : Record) : Text :=
  match r.operand with
  | none => r.mnemonic.toList ++ ['\n']
  | some k => r.mnemonic.toList ++ ' ' :: decimalText k ++ ['\n']

end Sys2Proof.Machine
end

