-- ==== Sys2Proof/Machine/Reference.lean ====
section
/-! DEFINITION. The spec's own second description of a cycle, the block of R108, written with the arithmetic laws of
R94 on natural numbers. It shares with `step` the memory and nothing of the gates, the ALU or the meanings. -/

namespace Sys2Proof.Machine

/-- `Z` and `C` written with a new accumulator (R94, R108). -/
def State.refAcc (s : State) (result : Nat) (carry : Bool) : State :=
  { s with acc := mask result, z := decide (result % 16 = 0), c := carry }

/-- `ldi_flags(k)` of R108 by the table of R122. -/
def State.refLdi (s : State) (k : Nibble) : State :=
  match Config.ldiFlags with
  | .none => { s with acc := k }
  | .zeroOnly => { s with acc := k, z := decide (k.toNat = 0) }
  | .zeroAndClearCarry => { s with acc := k, z := decide (k.toNat = 0), c := false }

/-- The state at the end of `cycle()`, case by case on the opcode cell `o`, with `pc` the start address, `k` the operand
cell, `a` the accumulator, `b` the cell `M[k]` (R108). -/
def refExecute (s : State) (o pc a b : Nat) (k : Nibble) : State :=
  match o with
  | 0x0 => { s with pc := mask (pc + 1) }
  | 0x1 => { s with acc := mask b, z := decide (b = 0), pc := mask (pc + 2) }
  | 0x2 => { s with mem := s.mem.write k (mask a), pc := mask (pc + 2) }
  | 0x3 => { s.refAcc (a + b) (decide (a + b > 15)) with pc := mask (pc + 2) }
  | 0x4 => { s.refAcc (a + 16 - b) (decide (b ≠ 0 ∧ a ≥ b)) with pc := mask (pc + 2) }
  | 0x5 => { s.refAcc (a &&& b) false with pc := mask (pc + 2) }
  | 0x6 => { s.refAcc (a ||| b) false with pc := mask (pc + 2) }
  | 0x7 => { s.refAcc (a ^^^ b) false with pc := mask (pc + 2) }
  | 0x8 => { s with pc := k }
  | 0x9 => { s with pc := if s.z then k else mask (pc + 2) }
  | 0xA => { s.refLdi k with pc := mask (pc + 2) }
  | 0xB => { s.refAcc (a + 1) (decide (a = 15)) with pc := mask (pc + 1) }
  | 0xC => { s.refAcc (a + 15) (decide (a ≥ 1)) with pc := mask (pc + 1) }
  | 0xD => { s with z := decide (a = b), c := decide (b ≠ 0 ∧ a ≥ b), pc := mask (pc + 2) }
  | 0xE => { s with pc := if s.z then mask (pc + 2) else k }
  | _ => { s with halted := true }

/-- One `cycle()` as R108 writes it. -/
def refCycle (s : State) : State :=
  if s.halted then s
  else
    let o := s.mem.read s.pc
    let k := s.mem.read (mask (s.pc.toNat + 1))
    refExecute { s with cycles := s.cycles + 1, ir := o } o.toNat s.pc.toNat s.acc.toNat (s.mem.read k).toNat k

end Sys2Proof.Machine
end

