-- ==== Sys2Proof/Machine/Transactions.lean ====
section
/-! DEFINITION. The operations the host has, complete (R112): each indivisible, one at a time, only between cycles.
The host writes no register and no flag (the spec's own decision D15, log entry 17). -/

namespace Sys2Proof.Machine

/-- construct: a CPU in the reset state (R25, R112). -/
def construct : State := State.reset

/-- `reset()`: every register, flag and counter cleared and the memory cleared with them; partial reset is not an
operation (R35, R200, R202). -/
def State.resetAll (s : State) : State :=
  let registers := ((s.clearReg .acc).clearReg .pc).clearReg .ir
  let flags := (registers.clearFlag .zero).clearFlag .carry
  let memory := (flags.setHalted false).setMem Memory.clear
  { memory with cycles := 0 }

/-- `load_program(bytes)`: memory only (R34; the spec's own decision D5, log entry 14). -/
def State.loadProgram (s : State) (bytes : List Nat) : State := s.setMem (s.mem.loadProgram bytes)

/-- memory `write(addr, value)`: one cell (R32, R112). -/
def State.hostWrite (s : State) (addr value : Nat) : State := s.setMem (s.mem.writeWide addr value)

/-- memory `read(addr)` (R33, R112). -/
def State.hostRead (s : State) (addr : Nat) : Nibble := s.mem.readWide addr

/-- `cycle()` (R101, R102). -/
def cycle (s : State) : Host.Outcome State Fault Refusal := step s

/-- `run(max_cycles)`: "loop `cycle()` until halted or the cycle budget is exhausted"; the budget counts the cycles
of this call (R110; the spec's own decision D8, log entry 11). -/
def run : Nat → State → Host.Outcome State Fault Refusal
  | 0, s => .next s
  | n + 1, s =>
    if s.halted then .next s
    else
      match cycle s with
      | .next t => run n t
      | .fault f => .fault f
      | .refused r => .refused r

/-- The host's operations that act on a CPU (R112); reads change nothing and are not listed. -/
inductive Transaction where
  | reset
  | loadProgram (bytes : List Nat)
  | cycle
  | run (maxCycles : Nat)
  | write (addr value : Nat)
deriving DecidableEq, Repr

/-- One operation of the host (R112). -/
def perform (t : Transaction) (s : State) : Host.Outcome State Fault Refusal :=
  match t with
  | .reset => .next s.resetAll
  | .loadProgram bytes => .next (s.loadProgram bytes)
  | .cycle => cycle s
  | .run maxCycles => run maxCycles s
  | .write addr value => .next (s.hostWrite addr value)

end Sys2Proof.Machine
end

