-- ==== Sys2Proof/Safety.lean ====
section
/-! DEFINITION. The terms claims use: what an instruction leaves alone, where it leaves `PC`, the invariant of the
machine, and the states the host can bring it to. -/

namespace Sys2Proof.Machine

/-- Every cell of memory reads as before. -/
def SameCells (s t : State) : Prop := ∀ a : Nibble, t.memRead a = s.memRead a

/-- Every cell of memory but `k` reads as before. -/
def SameCellsBut (k : Nibble) (s t : State) : Prop := ∀ a : Nibble, a ≠ k → t.memRead a = s.memRead a

/-- `IR`, `HALTED` and `CYCLES` are unchanged. -/
def SameControl (s t : State) : Prop := t.ir = s.ir ∧ t.halted = s.halted ∧ t.cycles = s.cycles

/-- Both flags are unchanged. -/
def SameFlags (s t : State) : Prop := t.z = s.z ∧ t.c = s.c

/-- Nothing changes but, at most, the Nibble register `r`. -/
def OnlyRegChanges (r : Reg) (s t : State) : Prop :=
  (∀ q, q ≠ r → t.readReg q = s.readReg q) ∧ SameFlags s t ∧ SameCells s t ∧ t.halted = s.halted ∧
    t.cycles = s.cycles

/-- Nothing changes but, at most, the flag `f`. -/
def OnlyFlagChanges (f : FlagReg) (s t : State) : Prop :=
  (∀ g, g ≠ f → t.readFlag g = s.readFlag g) ∧ (∀ q, t.readReg q = s.readReg q) ∧ SameCells s t ∧
    t.halted = s.halted ∧ t.cycles = s.cycles

/-- The table of R106: `PC` at the end of the cycle, from its value `pc` at the start and the zero flag. -/
def pcAtEnd (i : Instr) (pc : Nat) (z : Bool) : Nat :=
  match i with
  | .nop => (pc + 1) % 16
  | .load _ => (pc + 2) % 16
  | .store _ => (pc + 2) % 16
  | .add _ => (pc + 2) % 16
  | .sub _ => (pc + 2) % 16
  | .and _ => (pc + 2) % 16
  | .or _ => (pc + 2) % 16
  | .xor _ => (pc + 2) % 16
  | .jump k => k.toNat
  | .jz k => if z then k.toNat else (pc + 2) % 16
  | .ldi _ => (pc + 2) % 16
  | .inc => (pc + 1) % 16
  | .dec => (pc + 1) % 16
  | .cmp _ => (pc + 2) % 16
  | .jnz k => if z then (pc + 2) % 16 else k.toNat
  | .halt => pc

/-- The ALU operation and second operand of an ALU instruction (R52, R92). -/
def aluUse (s : State) : Instr → Option AluResult
  | .add k => some (alu s.acc (s.memRead k) .add)
  | .sub k => some (alu s.acc (s.memRead k) .subtract)
  | .and k => some (alu s.acc (s.memRead k) .and)
  | .or k => some (alu s.acc (s.memRead k) .or)
  | .xor k => some (alu s.acc (s.memRead k) .xor)
  | .inc => some (alu s.acc 1 .add)
  | .dec => some (alu s.acc 1 .subtract)
  | .cmp k => some (alu s.acc (s.memRead k) .subtract)
  | .nop => none
  | .load _ => none
  | .store _ => none
  | .jump _ => none
  | .jz _ => none
  | .ldi _ => none
  | .jnz _ => none
  | .halt => none

/-- The table of R17: `Z` and `C` after an instruction. -/
def flagsAfter (s : State) (i : Instr) : Bool × Bool :=
  match aluUse s i with
  | some r => (r.result == 0, r.carry)
  | none =>
    match i with
    | .load k => (s.memRead k == 0, s.c)
    | .ldi k => (ldiZero Config.ldiFlags k s.z, ldiCarry Config.ldiFlags s.c)
    | _ => (s.z, s.c)

/-- The instructions that write `ACC` (R12). -/
def writesAcc : Instr → Bool
  | .load _ => true
  | .ldi _ => true
  | .add _ => true
  | .sub _ => true
  | .and _ => true
  | .or _ => true
  | .xor _ => true
  | .inc => true
  | .dec => true
  | .nop => false
  | .store _ => false
  | .jump _ => false
  | .jz _ => false
  | .cmp _ => false
  | .jnz _ => false
  | .halt => false

/-- The cell an instruction writes, if it writes one: `STORE` alone does (R40). -/
def storedCell : Instr → Option Nibble
  | .store k => some k
  | .nop => none
  | .load _ => none
  | .add _ => none
  | .sub _ => none
  | .and _ => none
  | .or _ => none
  | .xor _ => none
  | .jump _ => none
  | .jz _ => none
  | .ldi _ => none
  | .inc => none
  | .dec => none
  | .cmp _ => none
  | .jnz _ => none
  | .halt => none

/-- The invariant of every state the CPU reaches: memory holds Nibbles at addresses 0 to 15 in canonical form
(R7, R24), and a Halted CPU's `IR` is `0xF`, the opcode of the `HALT` that halted it (R15). -/
def State.Inv (s : State) : Prop := s.mem.wf = true ∧ (s.halted = true → s.ir = 0xF#4)

/-- States the host can bring the machine to: from construction, by its operations in any order (R112). -/
inductive Reachable : State → Prop where
  | construct : Reachable construct
  | perform {s t : State} (op : Transaction) : Reachable s → perform op s = .next t → Reachable t

/-- Two states that agree on all that an instruction reads or an address can reach: `ACC`, `PC`, `Z`, `HALTED` and
memory. They may differ in `C`, `IR` and `CYCLES`, which no instruction reads (R15, R18, R20). -/
def AgreeForPrograms (s t : State) : Prop :=
  s.acc = t.acc ∧ s.pc = t.pc ∧ s.z = t.z ∧ s.halted = t.halted ∧ s.mem = t.mem

/-- The instruction lines of a source with the byte offset of each (R155, R162). -/
def sourceInstructions (source : Text) : List (Nat × AsmInstruction) :=
  (firstPass 0 ((sourceLines source).map classifyLine)).instructions

/-- The decimal digits of R163. -/
def decimalDigits : List Char := ['0', '1', '2', '3', '4', '5', '6', '7', '8', '9']

/-- The hexadecimal digits of R163, in both cases. -/
def hexDigits : List Char :=
  decimalDigits ++ ['A', 'B', 'C', 'D', 'E', 'F'] ++ ['a', 'b', 'c', 'd', 'e', 'f']

/-- The grammar of an operand token, `hex | dec`, as R163 writes it: `0x` and one or more hexadecimal digits, or one or
more decimal digits. -/
def IsLiteral (t : Text) : Prop :=
  (∃ ds, t = '0' :: 'x' :: ds ∧ ds ≠ [] ∧ ∀ c ∈ ds, c ∈ hexDigits) ∨ (t ≠ [] ∧ ∀ c ∈ t, c ∈ decimalDigits)

/-- The character of a hexadecimal digit, as a capital or not (R163). -/
def hexDigitChar (capital : Bool) (d : Fin 16) : Char :=
  (decimalDigits ++ if capital then ['A', 'B', 'C', 'D', 'E', 'F'] else ['a', 'b', 'c', 'd', 'e', 'f']).getD d.val '0'

/-- Every line but the label lines. -/
def withoutLabels : List Line → List Line
  | [] => []
  | .label _ :: ls => withoutLabels ls
  | .blank :: ls => .blank :: withoutLabels ls
  | .instr i :: ls => .instr i :: withoutLabels ls
  | .error e :: ls => .error e :: withoutLabels ls
  | .refused r :: ls => .refused r :: withoutLabels ls

end Sys2Proof.Machine
end

