-- ==== Sys2Proof/WellFormed.lean ====
section
/-! DEFINITION. What a well-formed input of the tools is. The decoded instruction `Instr` needs no check: all 16
opcodes are assigned and all 16 operand values are legal (R60), and its operand is a Nibble by type. -/

namespace Sys2Proof

/-- A parsed line is well formed when its mnemonic is in the table of R161 and it has an operand exactly if the
mnemonic requires one (R160, R161, R164). -/
def AsmInstruction.wellFormed (i : AsmInstruction) : Bool :=
  match opcodeOfMnemonic i.opcode with
  | none => false
  | some o => i.operand.isSome == needsOperand o

/-- A byte stream is well formed when every element is 0 to 15 (R6, R167). -/
def streamWellFormed (bytes : List Nat) : Bool := bytes.all (· < 16)

end Sys2Proof
end

