-- ==== Sys2Proof/Certificates/Slice0/Obligations.lean ====
section
/-! DEFINITION. The statements for the provers. Each docstring names the rule or section of spec/ it formalises, and
the spec's own decision or the log entry where a clause rests on one. -/

open Sys2Proof Sys2Proof.Machine

/-! ### Gates, adders, ALU -/

/-- 40_gates_adders.md section 3: the full adder's structure, formulas and numeric reading (R73). That its two inner
carries are never both 1 is an inference the spec marks as its own (R73, "derived"). -/
def Obligations.FullAdderAddsThreeBits : Prop :=
  ∀ a b cin : Bit,
    (fullAdder a b cin).sum = (halfAdder (halfAdder a b).sum cin).sum ∧
    (fullAdder a b cin).carry = gateOr (halfAdder a b).carry (halfAdder (halfAdder a b).sum cin).carry ∧
    (fullAdder a b cin).sum = ((a ^^ b) ^^ cin) ∧
    (fullAdder a b cin).carry = ((a && b) || (cin && (a ^^ b))) ∧
    2 * (fullAdder a b cin).carry.toNat + (fullAdder a b cin).sum.toNat = a.toNat + b.toNat + cin.toNat ∧
    ((halfAdder a b).carry && (halfAdder (halfAdder a b).sum cin).carry) = false

/-- R76: the arithmetic law of the chain. -/
def Obligations.ChainAddsModSixteen : Prop :=
  ∀ a b : Nibble,
    (adderChain a b).result.toNat = (a.toNat + b.toNat) % 16 ∧
    (adderChain a b).carry = decide (a.toNat + b.toNat > 15) ∧
    16 * (adderChain a b).carry.toNat + (adderChain a b).result.toNat = a.toNat + b.toNat

/-- R88: Add, on operands of any width, is the chain on the masked operands; its result, carry and zero. -/
def Obligations.AluAddsMaskedOperands : Prop :=
  ∀ a b : Nat,
    (aluCompute a b .add).result = (adderChain (mask a) (mask b)).result ∧
    (aluCompute a b .add).carry = (adderChain (mask a) (mask b)).carry ∧
    (aluCompute a b .add).result.toNat = (a + b) % 16 ∧
    (aluCompute a b .add).carry = decide (a % 16 + b % 16 > 15) ∧
    (aluCompute a b .add).zero = decide ((aluCompute a b .add).result.toNat = 0)

/-- R89, R90: Subtract is Add of the masked complement; its carry is that addition's. The carry for a zero second
operand is the spec's own decision D11 (log entry 13). -/
def Obligations.AluSubtractsByComplement : Prop :=
  ∀ a b : Nat,
    aluCompute a b .subtract = aluCompute a (16 - b % 16) .add ∧
    (aluCompute a b .subtract).result.toNat = (a % 16 + (16 - b % 16)) % 16 ∧
    (aluCompute a b .subtract).carry = decide (b % 16 ≠ 0 ∧ a % 16 ≥ b % 16) ∧
    (aluCompute a b .subtract).zero = decide (a % 16 = b % 16)

/-- R91: And, Or, Xor are one gate per bit position, carry false, zero from the masked result. -/
def Obligations.AluBitwiseIsOneGatePerBit : Prop :=
  ∀ a b : Nat,
    (∀ i, i < 4 →
      (aluCompute a b .and).result.getLsbD i = gateAnd (a.testBit i) (b.testBit i) ∧
      (aluCompute a b .or).result.getLsbD i = gateOr (a.testBit i) (b.testBit i) ∧
      (aluCompute a b .xor).result.getLsbD i = gateXor (a.testBit i) (b.testBit i)) ∧
    (∀ op, op = .and ∨ op = .or ∨ op = .xor →
      (aluCompute a b op).carry = false ∧
      (aluCompute a b op).zero = decide ((aluCompute a b op).result.toNat = 0))

/-! ### Memory, registers, reset -/

/-- R32: the host's `write(addr, value)` changes the masked cell to the masked value, no other cell and no register;
the next read sees it. -/
def Obligations.WriteChangesOneCell : Prop :=
  ∀ (s : State) (addr value : Nat), ∃ t, perform (.write addr value) s = .next t ∧
    (∀ a, t.hostRead a = if a % 16 = addr % 16 then mask value else s.hostRead a) ∧
    t.acc = s.acc ∧ t.pc = s.pc ∧ SameFlags s t ∧ SameControl s t

/-- The canonical form is canonical (the model's own choice, log entry 2): memories that read alike are equal data. -/
def Obligations.EqualContentsAreEqualMemories : Prop :=
  ∀ m m' : Memory, m.wf = true → m'.wf = true → (∀ a : Nibble, m.read a = m'.read a) → m = m'

/-- 20_memory.md section 1, load_program: up to 16 elements from address 0, each masked. That the other cells and all
registers stay as they were is the spec's own decision D5 (log entry 14). -/
def Obligations.LoadProgramCopiesUpToSixteen : Prop :=
  ∀ (s : State) (bytes : List Nat), ∃ t, perform (.loadProgram bytes) s = .next t ∧
    (∀ a : Nibble, t.memRead a =
      if a.toNat < bytes.length then mask (bytes.getD a.toNat 0) else s.memRead a) ∧
    t.acc = s.acc ∧ t.pc = s.pc ∧ SameFlags s t ∧ SameControl s t

/-- 70_reset_and_hazards.md section 1: reset, from every state, sets every component to its reset value, and
construction gives the same state. `IR`, `Z` and `C` at 0 are the spec's own decision D6 (log entry 9). -/
def Obligations.ResetRestoresEveryComponent : Prop :=
  ∀ s : State, ∃ t, perform .reset s = .next t ∧ t = construct ∧
    t.acc = 0#4 ∧ t.pc = 0#4 ∧ t.ir = 0#4 ∧ t.z = false ∧ t.c = false ∧ t.halted = false ∧ t.cycles = 0 ∧
    (∀ a : Nibble, t.memRead a = 0#4)

/-- 10_state.md section 7: the operations of the Registers block (R23), each on one register or flag, increment and
decrement wrapping modulo 16. INC and DEC go through the ALU instead: that they act on `ACC`, the ALU's operand `a`, is
the spec's own decision D25 (log entry 15). -/
def Obligations.RegisterOperationsWrap : Prop :=
  ∀ (s : State) (r : Reg) (f : FlagReg) (v : Nat) (b : Bool),
    ((s.writeReg r v).readReg r = mask v ∧ OnlyRegChanges r s (s.writeReg r v)) ∧
    (((s.incReg r).readReg r).toNat = ((s.readReg r).toNat + 1) % 16 ∧ OnlyRegChanges r s (s.incReg r)) ∧
    (((s.decReg r).readReg r).toNat = ((s.readReg r).toNat + 15) % 16 ∧ OnlyRegChanges r s (s.decReg r)) ∧
    ((s.clearReg r).readReg r = 0#4 ∧ OnlyRegChanges r s (s.clearReg r)) ∧
    ((s.writeFlag f b).readFlag f = b ∧ OnlyFlagChanges f s (s.writeFlag f b)) ∧
    ((s.clearFlag f).readFlag f = false ∧ OnlyFlagChanges f s (s.clearFlag f)) ∧
    s.advanceOne = s.incReg .pc ∧ s.advanceTwo = (s.incReg .pc).incReg .pc ∧
    (∃ t, exec .inc s = .next t ∧ t.acc = (alu s.acc 1 .add).result ∧
      t.z = (alu s.acc 1 .add).zero ∧ t.c = (alu s.acc 1 .add).carry) ∧
    (∃ t, exec .dec s = .next t ∧ t.acc = (alu s.acc 1 .subtract).result ∧
      t.z = (alu s.acc 1 .subtract).zero ∧ t.c = (alu s.acc 1 .subtract).carry)

/-! ### Each instruction: what it computes, and all it leaves alone -/

/-- LOAD (43_data_movement.md): `ACC` and `Z` from the cell, `C` kept. The direction of the move is the spec's own
decision D25 (log entry 15). -/
def Obligations.LoadReadsCellIntoAcc : Prop :=
  ∀ (k : Nibble) (s : State), ∃ t, exec (.load k) s = .next t ∧
    t.acc = s.memRead k ∧ t.z = decide ((s.memRead k).toNat = 0) ∧ t.c = s.c ∧
    t.pc.toNat = (s.pc.toNat + 2) % 16 ∧ SameControl s t ∧ SameCells s t

/-- STORE (43_data_movement.md): the cell `k` gets `ACC`, no flag is written. The direction of the move is the spec's
own decision D25 (log entry 15). -/
def Obligations.StoreWritesAccIntoCell : Prop :=
  ∀ (k : Nibble) (s : State), ∃ t, exec (.store k) s = .next t ∧
    t.memRead k = s.acc ∧ SameCellsBut k s t ∧ t.acc = s.acc ∧ SameFlags s t ∧
    t.pc.toNat = (s.pc.toNat + 2) % 16 ∧ SameControl s t

/-- LDI (43_data_movement.md): `ACC` gets the operand; the flags follow the table of `LDI_FLAGS`, whichever value the
parameter has (log entry 1). That `LDI` loads `ACC` is the spec's own decision D25 (log entry 15). -/
def Obligations.LdiLoadsImmediate : Prop :=
  ∀ (k : Nibble) (s : State), ∃ t, exec (.ldi k) s = .next t ∧
    t.acc = k ∧
    t.z = ldiZero Config.ldiFlags k s.z ∧ t.c = ldiCarry Config.ldiFlags s.c ∧
    t.pc.toNat = (s.pc.toNat + 2) % 16 ∧ SameControl s t ∧ SameCells s t

/-- LDI for each value of `LDI_FLAGS` in turn, as a function of the parameter: the three rows of the table of
43_data_movement.md on the state `LDI` leaves. Only the flags depend on the parameter. -/
def Obligations.LdiFlagsFollowTheParameter : Prop :=
  ∀ (k : Nibble) (s : State),
    exec (.ldi k) s = .next (s.loadImmediate Config.ldiFlags k) ∧
    ((s.loadImmediate .none k).z = s.z ∧ (s.loadImmediate .none k).c = s.c) ∧
    ((s.loadImmediate .zeroOnly k).z = decide (k.toNat = 0) ∧ (s.loadImmediate .zeroOnly k).c = s.c) ∧
    ((s.loadImmediate .zeroAndClearCarry k).z = decide (k.toNat = 0) ∧
      (s.loadImmediate .zeroAndClearCarry k).c = false) ∧
    (∀ p q : LdiFlags,
      { s.loadImmediate p k with z := false, c := false } = { s.loadImmediate q k with z := false, c := false })

/-- ADD (44_arith_logic.md). That the accumulator is operand `a` is the spec's own decision D25 (log entry 15). -/
def Obligations.AddAddsCellToAcc : Prop :=
  ∀ (k : Nibble) (s : State), ∃ t, exec (.add k) s = .next t ∧
    t.acc.toNat = (s.acc.toNat + (s.memRead k).toNat) % 16 ∧
    t.c = decide (s.acc.toNat + (s.memRead k).toNat > 15) ∧
    t.z = decide (t.acc.toNat = 0) ∧
    t.pc.toNat = (s.pc.toNat + 2) % 16 ∧ SameControl s t ∧ SameCells s t

/-- SUB (44_arith_logic.md). Operand order is the spec's own decision D25 (log entry 15), the carry for a zero
subtrahend its decision D11 (log entry 13). -/
def Obligations.SubSubtractsCellFromAcc : Prop :=
  ∀ (k : Nibble) (s : State), ∃ t, exec (.sub k) s = .next t ∧
    t.acc.toNat = (s.acc.toNat + 16 - (s.memRead k).toNat) % 16 ∧
    t.z = decide (s.acc = s.memRead k) ∧
    t.c = decide ((s.memRead k).toNat ≠ 0 ∧ s.acc.toNat ≥ (s.memRead k).toNat) ∧
    t.pc.toNat = (s.pc.toNat + 2) % 16 ∧ SameControl s t ∧ SameCells s t

/-- AND, OR, XOR (44_arith_logic.md): the bitwise operation on the numbers, `C` cleared, `Z` from the result. Operand
roles are the spec's own decision D25 (log entry 15). -/
def Obligations.LogicInstructionsAreBitwise : Prop :=
  ∀ (k : Nibble) (s : State),
    (∃ t, exec (.and k) s = .next t ∧ t.acc.toNat = s.acc.toNat &&& (s.memRead k).toNat ∧ t.c = false ∧
      t.z = decide (t.acc.toNat = 0) ∧ t.pc.toNat = (s.pc.toNat + 2) % 16 ∧ SameControl s t ∧ SameCells s t) ∧
    (∃ t, exec (.or k) s = .next t ∧ t.acc.toNat = s.acc.toNat ||| (s.memRead k).toNat ∧ t.c = false ∧
      t.z = decide (s.acc.toNat = 0 ∧ (s.memRead k).toNat = 0) ∧
      t.pc.toNat = (s.pc.toNat + 2) % 16 ∧ SameControl s t ∧ SameCells s t) ∧
    (∃ t, exec (.xor k) s = .next t ∧ t.acc.toNat = s.acc.toNat ^^^ (s.memRead k).toNat ∧ t.c = false ∧
      t.z = decide (s.acc = s.memRead k) ∧ t.pc.toNat = (s.pc.toNat + 2) % 16 ∧ SameControl s t ∧ SameCells s t)

/-- INC (44_arith_logic.md): `ACC` plus 1; both flags set exactly when it wraps. That INC acts on `ACC` is the spec's
own decision D25 (log entry 15). -/
def Obligations.IncAddsOne : Prop :=
  ∀ s : State, ∃ t, exec .inc s = .next t ∧
    t.acc.toNat = (s.acc.toNat + 1) % 16 ∧
    t.c = decide (s.acc.toNat = 15) ∧ t.z = decide (s.acc.toNat = 15) ∧
    t.pc.toNat = (s.pc.toNat + 1) % 16 ∧ SameControl s t ∧ SameCells s t

/-- DEC (44_arith_logic.md): `ACC` minus 1; `C` is 0 only when it wraps. That DEC acts on `ACC` is the spec's own
decision D25 (log entry 15). -/
def Obligations.DecSubtractsOne : Prop :=
  ∀ s : State, ∃ t, exec .dec s = .next t ∧
    t.acc.toNat = (s.acc.toNat + 15) % 16 ∧
    t.z = decide (s.acc.toNat = 1) ∧ t.c = decide (s.acc.toNat ≥ 1) ∧
    t.pc.toNat = (s.pc.toNat + 1) % 16 ∧ SameControl s t ∧ SameCells s t

/-- CMP (44_arith_logic.md): the flags of the subtraction, `ACC` kept. Operand order is the spec's own decision D25 (log
entry 15), the carry for a zero cell its decision D11 (log entry 13). -/
def Obligations.CmpWritesOnlyFlags : Prop :=
  ∀ (k : Nibble) (s : State), ∃ t, exec (.cmp k) s = .next t ∧
    t.acc = s.acc ∧
    t.z = decide (s.acc = s.memRead k) ∧
    t.c = decide ((s.memRead k).toNat ≠ 0 ∧ s.acc.toNat ≥ (s.memRead k).toNat) ∧
    t.pc.toNat = (s.pc.toNat + 2) % 16 ∧ SameControl s t ∧ SameCells s t

/-- NOP (45_control.md): `PC` advances by one cell, all else is kept. The spec marks the rule as derived. -/
def Obligations.NopOnlyAdvances : Prop :=
  ∀ s : State, ∃ t, exec .nop s = .next t ∧
    t.pc.toNat = (s.pc.toNat + 1) % 16 ∧ t.acc = s.acc ∧ SameFlags s t ∧ SameControl s t ∧ SameCells s t

/-- R146: JUMP sets `PC` to the operand, with no further advance and nothing else written. -/
def Obligations.JumpSetsPcToOperand : Prop :=
  ∀ (k : Nibble) (s : State), ∃ t, exec (.jump k) s = .next t ∧
    t.pc = k ∧ t.acc = s.acc ∧ SameFlags s t ∧ SameControl s t ∧ SameCells s t

/-- JZ and JNZ (45_control.md): to the operand if the zero flag is set, or clear, and past the operand cell otherwise.
The conditions are the spec's own decision D26 (log entry 15). -/
def Obligations.ConditionalJumpsTestZero : Prop :=
  ∀ (k : Nibble) (s : State),
    (∃ t, exec (.jz k) s = .next t ∧
      t.pc.toNat = (if s.z = true then k.toNat else (s.pc.toNat + 2) % 16) ∧
      t.acc = s.acc ∧ SameFlags s t ∧ SameControl s t ∧ SameCells s t) ∧
    (∃ t, exec (.jnz k) s = .next t ∧
      t.pc.toNat = (if s.z = false then k.toNat else (s.pc.toNat + 2) % 16) ∧
      t.acc = s.acc ∧ SameFlags s t ∧ SameControl s t ∧ SameCells s t)

/-- HALT (45_control.md): `HALTED` is set, `PC` and all else kept, and every later `cycle()`, and every `run`, is a
no-op. That a Halted cycle leaves `CYCLES` too is the spec's own decision D7 (log entry 10). -/
def Obligations.HaltSetsHaltedAndKeepsPc : Prop :=
  ∀ s : State, ∃ t, exec .halt s = .next t ∧
    t.halted = true ∧ t.pc = s.pc ∧ t.acc = s.acc ∧ t.ir = s.ir ∧ t.cycles = s.cycles ∧ SameFlags s t ∧
    SameCells s t ∧ step t = .next t ∧ ∀ n, run n t = .next t

/-! ### All instructions at once -/

/-- 42_cpu_cycle.md section 3: the program counter policy, for every instruction. Its rows for JZ and JNZ rest on the
spec's own decision D26 (log entry 15). -/
def Obligations.PcFollowsThePolicyTable : Prop :=
  ∀ (i : Instr) (s : State), ∃ t, exec i s = .next t ∧ t.pc.toNat = pcAtEnd i s.pc.toNat s.z

/-- 10_state.md section 5: which instruction writes which flag, and with what. The ALU's operands are the spec's own
decision D25 (log entry 15), and LDI's row is the parameter (log entry 1). -/
def Obligations.FlagsFollowTheTable : Prop :=
  ∀ (i : Instr) (s : State), ∃ t, exec i s = .next t ∧ (t.z, t.c) = flagsAfter s i

/-- 10_state.md sections 2 and 6, 20_memory.md section 4: what no instruction, or only some, may change. The list of
instructions that write `ACC` is marked as derived in the spec. -/
def Obligations.EveryInstructionKeepsItsFrame : Prop :=
  ∀ (i : Instr) (s : State), ∃ t, exec i s = .next t ∧
    t.ir = s.ir ∧ t.cycles = s.cycles ∧
    (t.halted = (s.halted || i == .halt)) ∧
    (writesAcc i = false → t.acc = s.acc) ∧
    (storedCell i = none → SameCells s t) ∧
    (∀ k, storedCell i = some k → SameCellsBut k s t)

/-! ### One cycle -/

/-- 42_cpu_cycle.md section 2: a step of a Running CPU is `exec` of the instruction whose cells stand at `PC`, on the
state that fetch leaves. `IR` and `CYCLES` there are the spec's own decisions D10 and D7 (log entries 12, 10). -/
def Obligations.StepRunsTheInstructionAtPc : Prop :=
  ∀ (s : State) (i : Instr), s.halted = false → s.memRead s.pc = i.opcode →
    (∀ k, i.operand = some k → s.memRead (s.pc + 1) = k) →
    step s = exec i { s with ir := i.opcode, cycles := s.cycles + 1 }

/-- 10_state.md sections 4 and 6: after a cycle of a Running CPU `IR` holds the opcode cell that was at `PC`, and
`CYCLES` is one more. The spec's own decisions D10 and D7 (log entries 12, 10). -/
def Obligations.CycleWritesIrAndCounts : Prop :=
  ∀ s : State, s.halted = false →
    ∃ t, step s = .next t ∧ t.ir = s.memRead s.pc ∧ t.cycles = s.cycles + 1

/-- 42_cpu_cycle.md section 1: in the Halted state `cycle()` and `run` change nothing. That this covers `CYCLES` is the
spec's own decision D7 (log entry 10). -/
def Obligations.HaltedCycleChangesNothing : Prop :=
  ∀ s : State, s.halted = true → step s = .next s ∧ ∀ n, run n s = .next s

/-- R100: the transitions of Running and Halted, complete. Construction and reset give Running; a cycle halts exactly by
executing HALT; a run, being cycles, halts only where one of its cycles executes HALT; nothing the host does but reset
leaves Halted, and nothing but a cycle or a run enters it. -/
def Obligations.OnlyHaltLeavesRunning : Prop :=
  construct.halted = false ∧
  (∀ s : State, ∃ t, perform .reset s = .next t ∧ t.halted = false) ∧
  (∀ s : State, s.halted = false → ∃ t, step s = .next t ∧
    (t.halted = true ↔ decode (s.memRead s.pc) (s.memRead (s.pc + 1)) = .halt)) ∧
  (∀ s : State, s.halted = true → ∃ t, step s = .next t ∧ t.halted = true) ∧
  (∀ (op : Transaction) (s : State), op ≠ .reset → s.halted = true → ∃ t, perform op s = .next t ∧ t.halted = true) ∧
  (∀ (op : Transaction) (s : State), op ≠ .cycle → (∀ n, op ≠ .run n) → s.halted = false →
    ∃ t, perform op s = .next t ∧ t.halted = false) ∧
  (∀ (n : Nat) (s t : State), s.halted = false → perform (.run n) s = .next t → t.halted = true →
    ∃ m u, m < n ∧ perform (.run m) s = .next u ∧ u.halted = false ∧
      decode (u.memRead u.pc) (u.memRead (u.pc + 1)) = .halt)

/-- R109: no cycle faults, traps, blocks or is refused, and no other operation of the host does. -/
def Obligations.EveryOperationCompletes : Prop :=
  (∀ s : State, ∃ t, step s = .next t) ∧ (∀ (op : Transaction) (s : State), ∃ t, perform op s = .next t)

/-- 20_memory.md section 5: a store is seen by every later fetch, at whatever `PC`, with no fence; the storing
instruction's own cells included. That STORE writes `ACC` is the spec's own decision D25 (log entry 15). -/
def Obligations.StoreIsSeenByLaterFetches : Prop :=
  ∀ s : State, s.halted = false → s.memRead s.pc = 0x2#4 →
    ∃ t, step s = .next t ∧ t.pc = s.pc + 2 ∧
      ∀ p : Nibble, ({ t with pc := p }).fetchInstr =
        decode (if p = s.memRead (s.pc + 1) then s.acc else s.memRead p)
          (if p + 1 = s.memRead (s.pc + 1) then s.acc else s.memRead (p + 1))

/-- 42_cpu_cycle.md section 5: the step is the block of the spec's pseudocode, which is written with integer arithmetic
and none of the gates. The spec marks the block as derived. -/
def Obligations.StepIsTheSpecsCycleBlock : Prop :=
  ∀ s : State, step s = .next (refCycle s)

/-- The host's table word runs as the next instruction from every state (the model's own choice, log entry 3). -/
def Obligations.FetchWordRunsNext : Prop :=
  ∀ (s : State) (nbits w : Nat), ∃ i, decodeTableWord nbits w = some i ∧
    step (s.withFetchWord nbits w) = exec i (s.withFetchWord nbits w).beginCycle

/-! ### Invariants and runs -/

/-- Every step keeps the invariant: canonical memory of Nibbles (00_scope.md section 7 and log entry 2), and `IR` at
`0xF` in the Halted state (10_state.md section 4; that no later read or cycle writes `IR` is the spec's own decision D10,
log entry 12). -/
def Obligations.StepKeepsInvariant : Prop :=
  ∀ s t : State, s.Inv → step s = .next t → t.Inv

/-- The invariant holds right after reset (10_state.md section 9). That memory's form is canonical is the model's own
choice (log entry 2). -/
def Obligations.ResetHasInvariant : Prop := State.reset.Inv

/-- The invariant holds in every state the host can bring the machine to, by any operations in any order. That memory's
form is canonical is the model's own choice (log entry 2); `IR` rests on the spec's own decision D10 (log entry 12), and
that a load changes neither `IR` nor `HALTED` on its decision D5 (log entry 14), and what the host can do on its
decision D15 (log entry 17). -/
def Obligations.EveryReachableStateHasInvariant : Prop := ∀ s : State, Reachable s → s.Inv

/-- 42_cpu_cycle.md section 6: `run` ends, never executes more cycles than its budget, and stops short of it only in the
Halted state. That the budget is the call's own is the spec's decision D8 (log entry 11). -/
def Obligations.RunStaysWithinItsBudget : Prop :=
  ∀ (n : Nat) (s : State), ∃ t, run n s = .next t ∧
    s.cycles ≤ t.cycles ∧ t.cycles ≤ s.cycles + n ∧ (t.halted = true ∨ t.cycles = s.cycles + n)

/-- 42_cpu_cycle.md section 6: a budget spent in two calls is the same run. The spec's decision D8 (log entry 11). -/
def Obligations.RunsCompose : Prop :=
  ∀ (m n : Nat) (s t : State), run m s = .next t → run (m + n) s = run n t

/-- 10_state.md sections 4 to 6: no instruction reads `C`, `IR` or `CYCLES`, so runs of any length from states that
differ only there stay alike in everything else. The spec marks part of this as derived. -/
def Obligations.HostOnlyStateNeverAffectsARun : Prop :=
  ∀ (n : Nat) (s s' : State), AgreeForPrograms s s' →
    ∃ t t', run n s = .next t ∧ run n s' = .next t' ∧ AgreeForPrograms t t'

/-! ### Encoding -/

/-- R55: the opcode cell alone tells the length; a two-cell opcode always takes the next cell. -/
def Obligations.OpcodeTellsLength : Prop :=
  ∀ (o k : Nibble) (rest : List Nibble),
    decodeCells (o :: k :: rest) =
      .ok (decode o k, if o = 0x0#4 ∨ o = 0xB#4 ∨ o = 0xC#4 ∨ o = 0xF#4 then k :: rest else rest)

/-- 30_encoding.md section 3: the cells of `encode i` decode to `i`, whatever follows. -/
def Obligations.DecodeOfEncode : Prop :=
  ∀ (i : Instr) (rest : List Nibble), decodeCells (encode i ++ rest) = .ok (i, rest)

/-- 30_encoding.md section 3: a whole program of instructions, of any length, is read back from its cells. -/
def Obligations.DecodeStreamOfEncodedProgram : Prop :=
  ∀ is : List Instr, decodeStream (is.flatMap encode) = .ok is

/-- 30_encoding.md section 3: where a list of cells reads as instructions, those instructions encode to exactly those
cells: decoding drops no bit of the cells an instruction occupies. -/
def Obligations.EncodeOfDecodedStream : Prop :=
  ∀ (cells : List Nibble) (is : List Instr), decodeStream cells = .ok is → is.flatMap encode = cells

/-- Words written out from the opcode map of 30_encoding.md, one or more of every family. -/
def Obligations.WrittenWordsDecode : Prop :=
  decode 0b0001#4 0b1110#4 = .load 14#4 ∧ decode 0b0010#4 0b1111#4 = .store 15#4 ∧
  decode 0b1010#4 0b0101#4 = .ldi 5#4 ∧ decode 0b0100#4 0b1101#4 = .sub 13#4 ∧
  decode 0b1100#4 0b0111#4 = .dec ∧ decode 0b1001#4 0b1001#4 = .jz 9#4 ∧ decode 0b1111#4 0b0000#4 = .halt

/-! ### Assembler and disassembler -/

/-- 46_assembler.md sections 3 and 4: what the lines of a source decide. A refused line or a label defined twice refuses
it all; otherwise the lowest-numbered bad line is the error; otherwise there are bytes. Which of several errors is
reported is the spec's own decision D21, duplicates its decision D20 (log entry 18). -/
def Obligations.AssemblyOutcomeFollowsTheLines : Prop :=
  ∀ ls : List Line,
    ((∃ r, assembleLines ls = .refused r) ↔ ((∃ r, Line.refused r ∈ ls) ∨ ¬ (labelNames ls).Nodup)) ∧
    (∀ n e, assembleLines ls = .error n e →
      1 ≤ n ∧ ls[n - 1]? = some (.error e) ∧ (∀ j e', j < n - 1 → ls[j]? ≠ some (.error e')) ∧
      ∀ r, Line.refused r ∉ ls) ∧
    ((∃ b l, assembleLines ls = .ok b l) ↔
      ((∀ r, Line.refused r ∉ ls) ∧ (labelNames ls).Nodup ∧ ∀ e, Line.error e ∉ ls))

/-- 46_assembler.md sections 2 and 3: address accounting agrees with the bytes emitted (R158, R162). The offset after
the last line is the stream's length; the table holds the labels defined, in order; and a label line is bound to the
number of bytes that the lines before it emit, which begin the stream. The spec marks the agreement with the stream's
length as derived. That the table is kept, and a duplicate refused, is the spec's own decision D20 (log entry 18). -/
def Obligations.OffsetsAgreeWithBytes : Prop :=
  ∀ (ls : List Line) (bytes : List Nibble) (labels : List (Text × Nat)), assembleLines ls = .ok bytes labels →
    (∀ i, Line.instr i ∈ ls → i.wellFormed = true) →
    (firstPass 0 ls).endOffset = bytes.length ∧ labels.map Prod.fst = labelNames ls ∧
    ∀ (pre post : List Line) (name : Text), ls = pre ++ .label name :: post →
      ∃ before after earlier, assembleLines pre = .ok before earlier ∧ bytes = before ++ after ∧
        (name, before.length) ∈ labels

/-- 46_assembler.md section 3: every instruction line the assembler accepts is a known mnemonic with an operand exactly
if it requires one (R160, R161, R164). -/
def Obligations.AcceptedLinesAreWellFormed : Prop :=
  ∀ (line : Text) (i : AsmInstruction), classifyLine line = .instr i → i.wellFormed = true

/-- 46_assembler.md section 2: label references are not resolved, whatever labels are defined (R159). An operand token
that is no literal is an `InvalidLiteral`, a bare label name that begins with a digit too; one that is itself a literal,
such as `5`, is that number. The label lines influence no byte. The grammar, and with it the kind of error for a token
such as `+5`, is the spec's own decision D18 (log entry 18). -/
def Obligations.LabelsInfluenceNoByte : Prop :=
  (∀ (m t : Text) (o : Nibble), opcodeOfMnemonic m = some o → needsOperand o = true →
    ¬ IsLiteral t → parseTokens [m, t] = .error .invalidLiteral) ∧
  (∀ (ls : List Line) (bytes : List Nibble) (labels : List (Text × Nat)), assembleLines ls = .ok bytes labels →
    assembleLines (withoutLabels ls) = .ok bytes [])

/-- 46_assembler.md sections 3 and 4: a literal is read as the number it writes, in decimal or in hexadecimal with each
digit in either case, leading zeros allowed; a value above 15 is out of range, not masked (R163); and a token is an
`InvalidLiteral` exactly when the grammar does not admit it (R164). The grammar is the spec's own decision D18 (log entry
18). -/
def Obligations.LiteralsAreReadAsNumbers : Prop :=
  (∀ ds : List (Fin 10), ds ≠ [] →
    parseOperand (ds.map fun d => Nat.digitChar d.val) =
      if ds.foldl (fun v d => v * 10 + d.val) 0 ≤ 15 then .ok (mask (ds.foldl (fun v d => v * 10 + d.val) 0))
      else .error .operandOutOfRange) ∧
  (∀ ds : List (Bool × Fin 16), ds ≠ [] →
    parseOperand ('0' :: 'x' :: ds.map fun d => hexDigitChar d.1 d.2) =
      if ds.foldl (fun v d => v * 16 + d.2.val) 0 ≤ 15 then .ok (mask (ds.foldl (fun v d => v * 16 + d.2.val) 0))
      else .error .operandOutOfRange) ∧
  (∀ t : Text, parseOperand t = .error .invalidLiteral ↔ ¬ IsLiteral t)

/-- 46_assembler.md section 5: for a source that assembles, the records of the disassembled bytes are its instruction
lines in order, aliases replaced, each at its byte offset. -/
def Obligations.DisassemblyReversesAssembly : Prop :=
  ∀ (source : Text) (bytes : List Nibble) (labels : List (Text × Nat)), assemble source = .ok bytes labels →
    disassemble (bytes.map BitVec.toNat) = some ((sourceInstructions source).map recordOf)

/-- 46_assembler.md section 5, the other direction, which the spec marks as derived: the text of the records of a stream
that does not end inside an instruction assembles to that stream. -/
def Obligations.AssemblyReversesDisassembly : Prop :=
  ∀ bytes : List Nibble, (∃ is, decodeStream bytes = .ok is) →
    assemble ((sweepFrom 0 bytes).flatMap recordText) = .ok bytes []

/-- From text to fetch: after a source of at most 16 bytes is assembled and loaded on any CPU, the instruction fetched at
each line's byte offset has that line's opcode and operand. Rests on the spec's decision D5 (log entry 14). -/
def Obligations.AssembledProgramIsWhatIsFetched : Prop :=
  ∀ (source : Text) (bytes : List Nibble) (labels : List (Text × Nat)) (s : State),
    assemble source = .ok bytes labels → bytes.length ≤ 16 →
    ∀ entry ∈ sourceInstructions source,
      opcodeOfMnemonic entry.2.opcode =
        some ({ s.loadProgram (bytes.map BitVec.toNat) with pc := mask entry.1 }).fetchInstr.opcode ∧
      ({ s.loadProgram (bytes.map BitVec.toNat) with pc := mask entry.1 }).fetchInstr.operand = entry.2.operand
end

