-- ==== Sys2Proof/Laws/Alu.lean ====
section
/-! SUPPORT. Everything the ALU's five operations can answer, in terms of the word's own arithmetic (R88 to R91). -/

namespace Sys2Proof.Machine

theorem neg_eq (b : Nibble) : neg b = -b := by
  revert b; decide

theorem alu_add (a b : Nibble) : alu a b .add = ⟨a + b, decide (15 < a.toNat + b.toNat), a + b == 0⟩ := by
  revert a b; decide

theorem alu_subtract (a b : Nibble) :
    alu a b .subtract = ⟨a - b, decide (b ≠ 0 ∧ b ≤ a), a == b⟩ := by
  revert a b; decide

theorem alu_and (a b : Nibble) : alu a b .and = ⟨a &&& b, false, a &&& b == 0⟩ := by
  revert a b; decide

theorem alu_or (a b : Nibble) : alu a b .or = ⟨a ||| b, false, a ||| b == 0⟩ := by
  revert a b; decide

theorem alu_xor (a b : Nibble) : alu a b .xor = ⟨a ^^^ b, false, a == b⟩ := by
  revert a b; decide

end Sys2Proof.Machine
end

