-- ==== Sys2Proof/Laws/Assembler.lean ====
section
/-! SUPPORT. What the shared parts of the assembler can answer, said once. -/

namespace Sys2Proof.Machine

theorem refusedLine_eq_none (ls : List Line) : refusedLine ls = none ↔ ∀ r, Line.refused r ∉ ls := by
  induction ls with
  | nil => simp [refusedLine]
  | cons l ls ih =>
    cases l with
    | refused r => simpa [refusedLine] using ⟨r, fun h => absurd rfl h⟩
    | _ => simp [refusedLine, ih]

theorem firstError_eq_none (n : Nat) (ls : List Line) : firstError n ls = none ↔ ∀ e, Line.error e ∉ ls := by
  induction ls generalizing n with
  | nil => simp [firstError]
  | cons l ls ih =>
    cases l with
    | error e => simpa [firstError] using ⟨e, fun h => absurd rfl h⟩
    | _ => simp [firstError, ih]

/-- A source is not refused exactly when no line is and no label name stands twice (R158, R165). -/
theorem sourceRefusal_eq_none (ls : List Line) :
    sourceRefusal ls = none ↔ (∀ r, Line.refused r ∉ ls) ∧ (labelNames ls).Nodup := by
  rw [← refusedLine_eq_none]
  unfold sourceRefusal
  cases refusedLine ls <;> simp

/-- The first line of a text, up to its line feed. -/
theorem sourceLines_cons_line (line rest : Text) (h : '\n' ∉ line) :
    sourceLines (line ++ '\n' :: rest) = line :: sourceLines rest := by
  unfold sourceLines
  induction line with
  | nil => simp [splitWhere]
  | cons c line ih =>
    have hc : c ≠ '\n' := fun g => h (by simp [g])
    rw [List.cons_append, splitWhere, if_neg (by simpa using hc), ih fun g => h (by simp [g])]

/-- Digits are read to no number exactly when one of the characters is no digit (R163). -/
theorem digitsFrom_eq_none (base : Nat) (digit : Char → Option Nat) (value : Nat) (t : Text) :
    digitsFrom base digit value t = none ↔ ∃ c ∈ t, digit c = none := by
  induction t generalizing value with
  | nil => simp [digitsFrom]
  | cons c cs ih =>
    unfold digitsFrom
    cases h : digit c <;> simp [h, ih]

/-- Phase 1 of some lines and then others: the others begin at the offset where the first ones end (R158, R162). -/
theorem firstPass_append (pre post : List Line) (n : Nat) :
    firstPass n (pre ++ post) =
      ⟨(firstPass n pre).instructions ++ (firstPass (firstPass n pre).endOffset post).instructions,
        (firstPass n pre).labels ++ (firstPass (firstPass n pre).endOffset post).labels,
        (firstPass (firstPass n pre).endOffset post).endOffset⟩ := by
  induction pre generalizing n with
  | nil => rfl
  | cons l pre ih => cases l <;> simp [firstPass, ih]

/-- The name of every label defined is in the table, in order (R158). -/
theorem firstPass_labels_fst (ls : List Line) (n : Nat) : (firstPass n ls).labels.map Prod.fst = labelNames ls := by
  induction ls generalizing n with
  | nil => rfl
  | cons l ls ih => cases l <;> simp [firstPass, labelNames, ih]

end Sys2Proof.Machine
end

