-- ==== Sys2Proof/Laws/State.lean ====
section
/-! SUPPORT. One lemma per field per update of the state, and per read of a cell, so that no proof unfolds a record
update. -/

namespace Sys2Proof.Machine

/-- The mask of a Nibble's number plus a constant is the wrapping sum. -/
theorem mask_toNat_add (v : Nibble) (n : Nat) : mask (v.toNat + n) = v + BitVec.ofNat 4 n := by
  simp [mask, BitVec.ofNat_add]

@[simp] theorem mask_toNat (v : Nibble) : mask v.toNat = v := by simp [mask]

@[simp] theorem toNat_mask (n : Nat) : (mask n).toNat = n % 16 := by simp [mask]

@[simp] theorem State.setAcc_acc (s : State) (v : Nibble) : (s.setAcc v).acc = v := rfl
@[simp] theorem State.setAcc_pc (s : State) (v : Nibble) : (s.setAcc v).pc = s.pc := rfl
@[simp] theorem State.setAcc_ir (s : State) (v : Nibble) : (s.setAcc v).ir = s.ir := rfl
@[simp] theorem State.setAcc_z (s : State) (v : Nibble) : (s.setAcc v).z = s.z := rfl
@[simp] theorem State.setAcc_c (s : State) (v : Nibble) : (s.setAcc v).c = s.c := rfl
@[simp] theorem State.setAcc_halted (s : State) (v : Nibble) : (s.setAcc v).halted = s.halted := rfl
@[simp] theorem State.setAcc_cycles (s : State) (v : Nibble) : (s.setAcc v).cycles = s.cycles := rfl
@[simp] theorem State.setAcc_mem (s : State) (v : Nibble) : (s.setAcc v).mem = s.mem := rfl
@[simp] theorem State.setAcc_memRead (s : State) (v : Nibble) (a : Nibble) : (s.setAcc v).memRead a = s.memRead a := rfl

@[simp] theorem State.setPc_acc (s : State) (v : Nibble) : (s.setPc v).acc = s.acc := rfl
@[simp] theorem State.setPc_pc (s : State) (v : Nibble) : (s.setPc v).pc = v := rfl
@[simp] theorem State.setPc_ir (s : State) (v : Nibble) : (s.setPc v).ir = s.ir := rfl
@[simp] theorem State.setPc_z (s : State) (v : Nibble) : (s.setPc v).z = s.z := rfl
@[simp] theorem State.setPc_c (s : State) (v : Nibble) : (s.setPc v).c = s.c := rfl
@[simp] theorem State.setPc_halted (s : State) (v : Nibble) : (s.setPc v).halted = s.halted := rfl
@[simp] theorem State.setPc_cycles (s : State) (v : Nibble) : (s.setPc v).cycles = s.cycles := rfl
@[simp] theorem State.setPc_mem (s : State) (v : Nibble) : (s.setPc v).mem = s.mem := rfl
@[simp] theorem State.setPc_memRead (s : State) (v : Nibble) (a : Nibble) : (s.setPc v).memRead a = s.memRead a := rfl

@[simp] theorem State.setIr_acc (s : State) (v : Nibble) : (s.setIr v).acc = s.acc := rfl
@[simp] theorem State.setIr_pc (s : State) (v : Nibble) : (s.setIr v).pc = s.pc := rfl
@[simp] theorem State.setIr_ir (s : State) (v : Nibble) : (s.setIr v).ir = v := rfl
@[simp] theorem State.setIr_z (s : State) (v : Nibble) : (s.setIr v).z = s.z := rfl
@[simp] theorem State.setIr_c (s : State) (v : Nibble) : (s.setIr v).c = s.c := rfl
@[simp] theorem State.setIr_halted (s : State) (v : Nibble) : (s.setIr v).halted = s.halted := rfl
@[simp] theorem State.setIr_cycles (s : State) (v : Nibble) : (s.setIr v).cycles = s.cycles := rfl
@[simp] theorem State.setIr_mem (s : State) (v : Nibble) : (s.setIr v).mem = s.mem := rfl
@[simp] theorem State.setIr_memRead (s : State) (v : Nibble) (a : Nibble) : (s.setIr v).memRead a = s.memRead a := rfl

@[simp] theorem State.setZ_acc (s : State) (v : Bool) : (s.setZ v).acc = s.acc := rfl
@[simp] theorem State.setZ_pc (s : State) (v : Bool) : (s.setZ v).pc = s.pc := rfl
@[simp] theorem State.setZ_ir (s : State) (v : Bool) : (s.setZ v).ir = s.ir := rfl
@[simp] theorem State.setZ_z (s : State) (v : Bool) : (s.setZ v).z = v := rfl
@[simp] theorem State.setZ_c (s : State) (v : Bool) : (s.setZ v).c = s.c := rfl
@[simp] theorem State.setZ_halted (s : State) (v : Bool) : (s.setZ v).halted = s.halted := rfl
@[simp] theorem State.setZ_cycles (s : State) (v : Bool) : (s.setZ v).cycles = s.cycles := rfl
@[simp] theorem State.setZ_mem (s : State) (v : Bool) : (s.setZ v).mem = s.mem := rfl
@[simp] theorem State.setZ_memRead (s : State) (v : Bool) (a : Nibble) : (s.setZ v).memRead a = s.memRead a := rfl

@[simp] theorem State.setC_acc (s : State) (v : Bool) : (s.setC v).acc = s.acc := rfl
@[simp] theorem State.setC_pc (s : State) (v : Bool) : (s.setC v).pc = s.pc := rfl
@[simp] theorem State.setC_ir (s : State) (v : Bool) : (s.setC v).ir = s.ir := rfl
@[simp] theorem State.setC_z (s : State) (v : Bool) : (s.setC v).z = s.z := rfl
@[simp] theorem State.setC_c (s : State) (v : Bool) : (s.setC v).c = v := rfl
@[simp] theorem State.setC_halted (s : State) (v : Bool) : (s.setC v).halted = s.halted := rfl
@[simp] theorem State.setC_cycles (s : State) (v : Bool) : (s.setC v).cycles = s.cycles := rfl
@[simp] theorem State.setC_mem (s : State) (v : Bool) : (s.setC v).mem = s.mem := rfl
@[simp] theorem State.setC_memRead (s : State) (v : Bool) (a : Nibble) : (s.setC v).memRead a = s.memRead a := rfl

@[simp] theorem State.setHalted_acc (s : State) (v : Bool) : (s.setHalted v).acc = s.acc := rfl
@[simp] theorem State.setHalted_pc (s : State) (v : Bool) : (s.setHalted v).pc = s.pc := rfl
@[simp] theorem State.setHalted_ir (s : State) (v : Bool) : (s.setHalted v).ir = s.ir := rfl
@[simp] theorem State.setHalted_z (s : State) (v : Bool) : (s.setHalted v).z = s.z := rfl
@[simp] theorem State.setHalted_c (s : State) (v : Bool) : (s.setHalted v).c = s.c := rfl
@[simp] theorem State.setHalted_halted (s : State) (v : Bool) : (s.setHalted v).halted = v := rfl
@[simp] theorem State.setHalted_cycles (s : State) (v : Bool) : (s.setHalted v).cycles = s.cycles := rfl
@[simp] theorem State.setHalted_mem (s : State) (v : Bool) : (s.setHalted v).mem = s.mem := rfl
@[simp] theorem State.setHalted_memRead (s : State) (v : Bool) (a : Nibble) : (s.setHalted v).memRead a = s.memRead a := rfl

@[simp] theorem State.setMem_acc (s : State) (v : Memory) : (s.setMem v).acc = s.acc := rfl
@[simp] theorem State.setMem_pc (s : State) (v : Memory) : (s.setMem v).pc = s.pc := rfl
@[simp] theorem State.setMem_ir (s : State) (v : Memory) : (s.setMem v).ir = s.ir := rfl
@[simp] theorem State.setMem_z (s : State) (v : Memory) : (s.setMem v).z = s.z := rfl
@[simp] theorem State.setMem_c (s : State) (v : Memory) : (s.setMem v).c = s.c := rfl
@[simp] theorem State.setMem_halted (s : State) (v : Memory) : (s.setMem v).halted = s.halted := rfl
@[simp] theorem State.setMem_cycles (s : State) (v : Memory) : (s.setMem v).cycles = s.cycles := rfl
@[simp] theorem State.setMem_mem (s : State) (v : Memory) : (s.setMem v).mem = v := rfl

@[simp] theorem State.setMem_memRead (s : State) (v : Memory) (a : Nibble) : (s.setMem v).memRead a = v.read a := rfl

@[simp] theorem State.countCycle_acc (s : State) : (s.countCycle).acc = s.acc := rfl
@[simp] theorem State.countCycle_pc (s : State) : (s.countCycle).pc = s.pc := rfl
@[simp] theorem State.countCycle_ir (s : State) : (s.countCycle).ir = s.ir := rfl
@[simp] theorem State.countCycle_z (s : State) : (s.countCycle).z = s.z := rfl
@[simp] theorem State.countCycle_c (s : State) : (s.countCycle).c = s.c := rfl
@[simp] theorem State.countCycle_halted (s : State) : (s.countCycle).halted = s.halted := rfl
@[simp] theorem State.countCycle_cycles (s : State) : (s.countCycle).cycles = s.cycles + 1 := rfl
@[simp] theorem State.countCycle_mem (s : State) : (s.countCycle).mem = s.mem := rfl
@[simp] theorem State.countCycle_memRead (s : State) (a : Nibble) : (s.countCycle).memRead a = s.memRead a := rfl

@[simp] theorem State.memWrite_acc (s : State) (a v : Nibble) : (s.memWrite a v).acc = s.acc := rfl
@[simp] theorem State.memWrite_pc (s : State) (a v : Nibble) : (s.memWrite a v).pc = s.pc := rfl
@[simp] theorem State.memWrite_ir (s : State) (a v : Nibble) : (s.memWrite a v).ir = s.ir := rfl
@[simp] theorem State.memWrite_z (s : State) (a v : Nibble) : (s.memWrite a v).z = s.z := rfl
@[simp] theorem State.memWrite_c (s : State) (a v : Nibble) : (s.memWrite a v).c = s.c := rfl
@[simp] theorem State.memWrite_halted (s : State) (a v : Nibble) : (s.memWrite a v).halted = s.halted := rfl
@[simp] theorem State.memWrite_cycles (s : State) (a v : Nibble) : (s.memWrite a v).cycles = s.cycles := rfl
@[simp] theorem State.memWrite_mem (s : State) (a v : Nibble) : (s.memWrite a v).mem = s.mem.write a v := rfl

@[simp] theorem State.advanceOne_acc (s : State) : (s.advanceOne).acc = s.acc := rfl
@[simp] theorem State.advanceOne_pc (s : State) : (s.advanceOne).pc = s.pc + 1 := by
  exact mask_toNat_add s.pc 1
@[simp] theorem State.advanceOne_ir (s : State) : (s.advanceOne).ir = s.ir := rfl
@[simp] theorem State.advanceOne_z (s : State) : (s.advanceOne).z = s.z := rfl
@[simp] theorem State.advanceOne_c (s : State) : (s.advanceOne).c = s.c := rfl
@[simp] theorem State.advanceOne_halted (s : State) : (s.advanceOne).halted = s.halted := rfl
@[simp] theorem State.advanceOne_cycles (s : State) : (s.advanceOne).cycles = s.cycles := rfl
@[simp] theorem State.advanceOne_mem (s : State) : (s.advanceOne).mem = s.mem := rfl
@[simp] theorem State.advanceOne_memRead (s : State) (a : Nibble) : (s.advanceOne).memRead a = s.memRead a := rfl

@[simp] theorem State.advanceTwo_acc (s : State) : (s.advanceTwo).acc = s.acc := rfl
@[simp] theorem State.advanceTwo_pc (s : State) : (s.advanceTwo).pc = s.pc + 2 := by
  have h : s.advanceTwo.pc = mask ((mask (s.pc.toNat + 1)).toNat + 1) := rfl
  rw [h, mask_toNat_add, mask_toNat_add, BitVec.add_assoc]; rfl
@[simp] theorem State.advanceTwo_ir (s : State) : (s.advanceTwo).ir = s.ir := rfl
@[simp] theorem State.advanceTwo_z (s : State) : (s.advanceTwo).z = s.z := rfl
@[simp] theorem State.advanceTwo_c (s : State) : (s.advanceTwo).c = s.c := rfl
@[simp] theorem State.advanceTwo_halted (s : State) : (s.advanceTwo).halted = s.halted := rfl
@[simp] theorem State.advanceTwo_cycles (s : State) : (s.advanceTwo).cycles = s.cycles := rfl
@[simp] theorem State.advanceTwo_mem (s : State) : (s.advanceTwo).mem = s.mem := rfl
@[simp] theorem State.advanceTwo_memRead (s : State) (a : Nibble) : (s.advanceTwo).memRead a = s.memRead a := rfl

@[simp] theorem State.updateFlags_acc (s : State) (v : Nibble) (b : Bool) : (s.updateFlags v b).acc = s.acc := rfl
@[simp] theorem State.updateFlags_pc (s : State) (v : Nibble) (b : Bool) : (s.updateFlags v b).pc = s.pc := rfl
@[simp] theorem State.updateFlags_ir (s : State) (v : Nibble) (b : Bool) : (s.updateFlags v b).ir = s.ir := rfl
@[simp] theorem State.updateFlags_z (s : State) (v : Nibble) (b : Bool) : (s.updateFlags v b).z = (v == 0) := rfl
@[simp] theorem State.updateFlags_c (s : State) (v : Nibble) (b : Bool) : (s.updateFlags v b).c = b := rfl
@[simp] theorem State.updateFlags_halted (s : State) (v : Nibble) (b : Bool) : (s.updateFlags v b).halted = s.halted := rfl
@[simp] theorem State.updateFlags_cycles (s : State) (v : Nibble) (b : Bool) : (s.updateFlags v b).cycles = s.cycles := rfl
@[simp] theorem State.updateFlags_mem (s : State) (v : Nibble) (b : Bool) : (s.updateFlags v b).mem = s.mem := rfl
@[simp] theorem State.updateFlags_memRead (s : State) (v : Nibble) (b : Bool) (a : Nibble) : (s.updateFlags v b).memRead a = s.memRead a := rfl

@[simp] theorem State.aluFlags_acc (s : State) (r : AluResult) : (s.aluFlags r).acc = s.acc := rfl
@[simp] theorem State.aluFlags_pc (s : State) (r : AluResult) : (s.aluFlags r).pc = s.pc := rfl
@[simp] theorem State.aluFlags_ir (s : State) (r : AluResult) : (s.aluFlags r).ir = s.ir := rfl
@[simp] theorem State.aluFlags_z (s : State) (r : AluResult) : (s.aluFlags r).z = r.zero := rfl
@[simp] theorem State.aluFlags_c (s : State) (r : AluResult) : (s.aluFlags r).c = r.carry := rfl
@[simp] theorem State.aluFlags_halted (s : State) (r : AluResult) : (s.aluFlags r).halted = s.halted := rfl
@[simp] theorem State.aluFlags_cycles (s : State) (r : AluResult) : (s.aluFlags r).cycles = s.cycles := rfl
@[simp] theorem State.aluFlags_mem (s : State) (r : AluResult) : (s.aluFlags r).mem = s.mem := rfl
@[simp] theorem State.aluFlags_memRead (s : State) (r : AluResult) (a : Nibble) : (s.aluFlags r).memRead a = s.memRead a := rfl

@[simp] theorem State.loadFlags_acc (s : State) (v : Nibble) : (s.loadFlags v).acc = s.acc := rfl
@[simp] theorem State.loadFlags_pc (s : State) (v : Nibble) : (s.loadFlags v).pc = s.pc := rfl
@[simp] theorem State.loadFlags_ir (s : State) (v : Nibble) : (s.loadFlags v).ir = s.ir := rfl
@[simp] theorem State.loadFlags_z (s : State) (v : Nibble) : (s.loadFlags v).z = (v == 0) := rfl
@[simp] theorem State.loadFlags_c (s : State) (v : Nibble) : (s.loadFlags v).c = s.c := rfl
@[simp] theorem State.loadFlags_halted (s : State) (v : Nibble) : (s.loadFlags v).halted = s.halted := rfl
@[simp] theorem State.loadFlags_cycles (s : State) (v : Nibble) : (s.loadFlags v).cycles = s.cycles := rfl
@[simp] theorem State.loadFlags_mem (s : State) (v : Nibble) : (s.loadFlags v).mem = s.mem := rfl
@[simp] theorem State.loadFlags_memRead (s : State) (v : Nibble) (a : Nibble) : (s.loadFlags v).memRead a = s.memRead a := rfl

@[simp] theorem State.ldiFlags_acc (s : State) (p : LdiFlags) (k : Nibble) : (s.ldiFlags p k).acc = s.acc := rfl
@[simp] theorem State.ldiFlags_pc (s : State) (p : LdiFlags) (k : Nibble) : (s.ldiFlags p k).pc = s.pc := rfl
@[simp] theorem State.ldiFlags_ir (s : State) (p : LdiFlags) (k : Nibble) : (s.ldiFlags p k).ir = s.ir := rfl
@[simp] theorem State.ldiFlags_z (s : State) (p : LdiFlags) (k : Nibble) : (s.ldiFlags p k).z = ldiZero p k s.z := rfl
@[simp] theorem State.ldiFlags_c (s : State) (p : LdiFlags) (k : Nibble) : (s.ldiFlags p k).c = ldiCarry p s.c := rfl
@[simp] theorem State.ldiFlags_halted (s : State) (p : LdiFlags) (k : Nibble) : (s.ldiFlags p k).halted = s.halted := rfl
@[simp] theorem State.ldiFlags_cycles (s : State) (p : LdiFlags) (k : Nibble) : (s.ldiFlags p k).cycles = s.cycles := rfl
@[simp] theorem State.ldiFlags_mem (s : State) (p : LdiFlags) (k : Nibble) : (s.ldiFlags p k).mem = s.mem := rfl
@[simp] theorem State.ldiFlags_memRead (s : State) (p : LdiFlags) (k : Nibble) (a : Nibble) : (s.ldiFlags p k).memRead a = s.memRead a := rfl

@[simp] theorem State.aluToAcc_acc (s : State) (op : AluOp) (b : Source) : (s.aluToAcc op b).acc = (alu s.acc (s.sourceValue b) op).result := rfl
@[simp] theorem State.aluToAcc_pc (s : State) (op : AluOp) (b : Source) : (s.aluToAcc op b).pc = s.pc := rfl
@[simp] theorem State.aluToAcc_ir (s : State) (op : AluOp) (b : Source) : (s.aluToAcc op b).ir = s.ir := rfl
@[simp] theorem State.aluToAcc_z (s : State) (op : AluOp) (b : Source) : (s.aluToAcc op b).z = (alu s.acc (s.sourceValue b) op).zero := rfl
@[simp] theorem State.aluToAcc_c (s : State) (op : AluOp) (b : Source) : (s.aluToAcc op b).c = (alu s.acc (s.sourceValue b) op).carry := rfl
@[simp] theorem State.aluToAcc_halted (s : State) (op : AluOp) (b : Source) : (s.aluToAcc op b).halted = s.halted := rfl
@[simp] theorem State.aluToAcc_cycles (s : State) (op : AluOp) (b : Source) : (s.aluToAcc op b).cycles = s.cycles := rfl
@[simp] theorem State.aluToAcc_mem (s : State) (op : AluOp) (b : Source) : (s.aluToAcc op b).mem = s.mem := rfl
@[simp] theorem State.aluToAcc_memRead (s : State) (op : AluOp) (b : Source) (a : Nibble) : (s.aluToAcc op b).memRead a = s.memRead a := rfl

@[simp] theorem State.aluFlagsOnly_acc (s : State) (op : AluOp) (b : Source) : (s.aluFlagsOnly op b).acc = s.acc := rfl
@[simp] theorem State.aluFlagsOnly_pc (s : State) (op : AluOp) (b : Source) : (s.aluFlagsOnly op b).pc = s.pc := rfl
@[simp] theorem State.aluFlagsOnly_ir (s : State) (op : AluOp) (b : Source) : (s.aluFlagsOnly op b).ir = s.ir := rfl
@[simp] theorem State.aluFlagsOnly_z (s : State) (op : AluOp) (b : Source) : (s.aluFlagsOnly op b).z = (alu s.acc (s.sourceValue b) op).zero := rfl
@[simp] theorem State.aluFlagsOnly_c (s : State) (op : AluOp) (b : Source) : (s.aluFlagsOnly op b).c = (alu s.acc (s.sourceValue b) op).carry := rfl
@[simp] theorem State.aluFlagsOnly_halted (s : State) (op : AluOp) (b : Source) : (s.aluFlagsOnly op b).halted = s.halted := rfl
@[simp] theorem State.aluFlagsOnly_cycles (s : State) (op : AluOp) (b : Source) : (s.aluFlagsOnly op b).cycles = s.cycles := rfl
@[simp] theorem State.aluFlagsOnly_mem (s : State) (op : AluOp) (b : Source) : (s.aluFlagsOnly op b).mem = s.mem := rfl
@[simp] theorem State.aluFlagsOnly_memRead (s : State) (op : AluOp) (b : Source) (a : Nibble) : (s.aluFlagsOnly op b).memRead a = s.memRead a := rfl

@[simp] theorem State.beginCycle_acc (s : State) : (s.beginCycle).acc = s.acc := rfl
@[simp] theorem State.beginCycle_pc (s : State) : (s.beginCycle).pc = s.pc := rfl
@[simp] theorem State.beginCycle_ir (s : State) : (s.beginCycle).ir = s.memRead s.pc := rfl
@[simp] theorem State.beginCycle_z (s : State) : (s.beginCycle).z = s.z := rfl
@[simp] theorem State.beginCycle_c (s : State) : (s.beginCycle).c = s.c := rfl
@[simp] theorem State.beginCycle_halted (s : State) : (s.beginCycle).halted = s.halted := rfl
@[simp] theorem State.beginCycle_cycles (s : State) : (s.beginCycle).cycles = s.cycles + 1 := rfl
@[simp] theorem State.beginCycle_mem (s : State) : (s.beginCycle).mem = s.mem := rfl
@[simp] theorem State.beginCycle_memRead (s : State) (a : Nibble) : (s.beginCycle).memRead a = s.memRead a := rfl

@[simp] theorem State.loadProgram_acc (s : State) (bytes : List Nat) : (s.loadProgram bytes).acc = s.acc := rfl
@[simp] theorem State.loadProgram_pc (s : State) (bytes : List Nat) : (s.loadProgram bytes).pc = s.pc := rfl
@[simp] theorem State.loadProgram_ir (s : State) (bytes : List Nat) : (s.loadProgram bytes).ir = s.ir := rfl
@[simp] theorem State.loadProgram_z (s : State) (bytes : List Nat) : (s.loadProgram bytes).z = s.z := rfl
@[simp] theorem State.loadProgram_c (s : State) (bytes : List Nat) : (s.loadProgram bytes).c = s.c := rfl
@[simp] theorem State.loadProgram_halted (s : State) (bytes : List Nat) : (s.loadProgram bytes).halted = s.halted := rfl
@[simp] theorem State.loadProgram_cycles (s : State) (bytes : List Nat) : (s.loadProgram bytes).cycles = s.cycles := rfl
@[simp] theorem State.loadProgram_mem (s : State) (bytes : List Nat) : (s.loadProgram bytes).mem = s.mem.loadProgram bytes := rfl

@[simp] theorem State.hostWrite_acc (s : State) (addr value : Nat) : (s.hostWrite addr value).acc = s.acc := rfl
@[simp] theorem State.hostWrite_pc (s : State) (addr value : Nat) : (s.hostWrite addr value).pc = s.pc := rfl
@[simp] theorem State.hostWrite_ir (s : State) (addr value : Nat) : (s.hostWrite addr value).ir = s.ir := rfl
@[simp] theorem State.hostWrite_z (s : State) (addr value : Nat) : (s.hostWrite addr value).z = s.z := rfl
@[simp] theorem State.hostWrite_c (s : State) (addr value : Nat) : (s.hostWrite addr value).c = s.c := rfl
@[simp] theorem State.hostWrite_halted (s : State) (addr value : Nat) : (s.hostWrite addr value).halted = s.halted := rfl
@[simp] theorem State.hostWrite_cycles (s : State) (addr value : Nat) : (s.hostWrite addr value).cycles = s.cycles := rfl
@[simp] theorem State.hostWrite_mem (s : State) (addr value : Nat) : (s.hostWrite addr value).mem = s.mem.writeWide addr value := rfl

@[simp] theorem State.sourceValue_cell (s : State) (k : Nibble) : s.sourceValue (.cell k) = s.memRead k := rfl
@[simp] theorem State.sourceValue_immediate (s : State) (k : Nibble) : s.sourceValue (.immediate k) = k := rfl
@[simp] theorem State.sourceValue_one (s : State) : s.sourceValue .one = 1 := rfl

/-- Where the operand cell of the next instruction is. -/
theorem State.operandAddress_eq (s : State) : s.operandAddress = s.pc + 1 := mask_toNat_add s.pc 1

/-- Everything `LDI` does to the state (R122). -/
theorem State.loadImmediate_eq (s : State) (p : LdiFlags) (k : Nibble) :
    s.loadImmediate p k = { s with acc := k, z := ldiZero p k s.z, c := ldiCarry p s.c, pc := s.pc + 2 } := by
  have h : (s.loadImmediate p k).pc = s.pc + 2 := State.advanceTwo_pc _
  rw [← h]; rfl

/-- The reset operation reaches the reset state from every state (R200). -/
theorem State.resetAll_eq (s : State) : s.resetAll = State.reset := rfl

/-- A jump goes to its operand if the condition holds and skips the operand cell otherwise (R106). -/
theorem State.jumpIf_eq (s : State) (b : Bool) (k : Nibble) :
    s.jumpIf b k = s.setPc (if b then k else s.pc + 2) := by
  cases b
  · have h : s.advanceTwo = s.setPc s.advanceTwo.pc := rfl
    simp only [State.jumpIf, Bool.false_eq_true, if_false]
    rw [h, State.advanceTwo_pc]
  · rfl

end Sys2Proof.Machine
end

