-- ==== Sys2Proof/Laws/Memory.lean ====
section
/-! SUPPORT. What the memory operations do (R31 to R35), and that each keeps the canonical form. -/

namespace Sys2Proof.Machine

theorem Memory.lookup_erase (m : Memory) (a b : Nat) :
    (m.erase a).lookup b = if b = a then Memory.unlisted else m.lookup b := by
  induction m with
  | nil => simp [Memory.erase, Memory.lookup]
  | cons e m ih =>
    obtain ⟨x, w⟩ := e
    by_cases hx : x = a
    · subst hx
      rw [Memory.erase, if_pos rfl, ih]
      by_cases hb : b = x
      · simp [hb]
      · simp [hb, Memory.lookup, Ne.symm hb]
    · rw [Memory.erase, if_neg hx, Memory.lookup, Memory.lookup, ih]
      by_cases hb : x = b
      · subst hb; simp [hx]
      · simp [hb]

theorem Memory.lookup_insert (m : Memory) (a b : Nat) (v : BitVec 8) (h : m.lookup a = Memory.unlisted)
    (hm : ∀ e ∈ m, e.1 ≠ a) :
    (m.insert a v).lookup b = if b = a then v.setWidth 4 else m.lookup b := by
  induction m with
  | nil => simp only [Memory.insert, Memory.lookup, eq_comm]
  | cons e m ih =>
    obtain ⟨x, w⟩ := e
    have hx : x ≠ a := hm (x, w) (by simp)
    have hm' : ∀ e ∈ m, e.1 ≠ a := fun e he => hm e (by simp [he])
    have h' : Memory.lookup m a = Memory.unlisted := by simpa [Memory.lookup, hx] using h
    rw [Memory.insert]
    split
    · rw [Memory.lookup]; simp only [eq_comm]
    · rw [Memory.lookup, ih h' hm', Memory.lookup]
      by_cases hb : x = b
      · subst hb; simp [hx]
      · simp [hb]

theorem Memory.ne_of_mem_erase (m : Memory) (a : Nat) : ∀ e ∈ m.erase a, e.1 ≠ a := by
  induction m with
  | nil => simp [Memory.erase]
  | cons e m ih =>
    obtain ⟨x, w⟩ := e
    rw [Memory.erase]
    split
    · exact ih
    · rename_i hx
      intro e he
      rcases List.mem_cons.mp he with rfl | he
      · exact hx
      · exact ih e he

/-- A read after a write gives the value written at the written cell, and what was there elsewhere (R32, R33). -/
theorem Memory.read_write (m : Memory) (a v b : Nibble) :
    (m.write a v).read b = if b = a then v else m.read b := by
  have key : b.toNat = a.toNat ↔ b = a := BitVec.toNat_inj
  unfold Memory.write Memory.read
  split
  · rename_i hv
    rw [Memory.lookup_erase]
    simp only [key, hv]
  · have he : (m.erase a.toNat).lookup a.toNat = Memory.unlisted := by simp [Memory.lookup_erase]
    rw [Memory.lookup_insert _ _ _ _ he (Memory.ne_of_mem_erase m a.toNat), Memory.lookup_erase]
    by_cases h : b = a
    · subst h; simp
    · simp [key, h]

@[simp] theorem Memory.read_write_same (m : Memory) (a v : Nibble) : (m.write a v).read a = v := by
  simp [Memory.read_write]

theorem Memory.read_write_other (m : Memory) {a b : Nibble} (v : Nibble) (h : b ≠ a) :
    (m.write a v).read b = m.read b := by
  simp [Memory.read_write, h]

@[simp] theorem Memory.read_clear (a : Nibble) : Memory.clear.read a = 0 := rfl

@[simp] theorem State.memRead_memWrite_same (s : State) (a v : Nibble) : (s.memWrite a v).memRead a = v :=
  Memory.read_write_same s.mem a v

theorem State.memRead_memWrite (s : State) (a v b : Nibble) :
    (s.memWrite a v).memRead b = if b = a then v else s.memRead b :=
  Memory.read_write s.mem a v b

/-- The canonical form from an address up, one entry at a time. -/
theorem Memory.wfFrom_cons {lo a : Nat} {w : BitVec 8} {m : Memory} :
    Memory.wfFrom lo ((a, w) :: m) = true ↔
      lo ≤ a ∧ a < 16 ∧ w.toNat < 16 ∧ w.setWidth 4 ≠ Memory.unlisted ∧ Memory.wfFrom (a + 1) m = true := by
  simp [Memory.wfFrom, and_assoc]

theorem Memory.wfFrom_mono {lo lo' : Nat} {m : Memory} (h : Memory.wfFrom lo m = true) (hl : lo' ≤ lo) :
    Memory.wfFrom lo' m = true := by
  cases m with
  | nil => rfl
  | cons e m =>
    obtain ⟨x, w⟩ := e
    rw [Memory.wfFrom_cons] at h ⊢
    exact ⟨by omega, h.2⟩

theorem Memory.wfFrom_erase {lo : Nat} {m : Memory} (a : Nat) (h : Memory.wfFrom lo m = true) :
    Memory.wfFrom lo (m.erase a) = true := by
  induction m generalizing lo with
  | nil => rfl
  | cons e m ih =>
    obtain ⟨x, w⟩ := e
    rw [Memory.wfFrom_cons] at h
    rw [Memory.erase]
    split
    · exact Memory.wfFrom_mono (ih h.2.2.2.2) (by omega)
    · rw [Memory.wfFrom_cons]
      exact ⟨h.1, h.2.1, h.2.2.1, h.2.2.2.1, ih h.2.2.2.2⟩

theorem Memory.wfFrom_insert {lo a : Nat} {v : BitVec 8} {m : Memory} (h : Memory.wfFrom lo m = true)
    (hm : ∀ e ∈ m, e.1 ≠ a) (hl : lo ≤ a) (ha : a < 16) (hv : v.toNat < 16)
    (hu : v.setWidth 4 ≠ Memory.unlisted) : Memory.wfFrom lo (m.insert a v) = true := by
  induction m generalizing lo with
  | nil => exact Memory.wfFrom_cons.mpr ⟨hl, ha, hv, hu, rfl⟩
  | cons e m ih =>
    obtain ⟨x, w⟩ := e
    have hx : x ≠ a := hm (x, w) (by simp)
    have h' := Memory.wfFrom_cons.mp h
    rw [Memory.insert]
    split
    · exact Memory.wfFrom_cons.mpr ⟨hl, ha, hv, hu, Memory.wfFrom_cons.mpr ⟨by omega, h'.2⟩⟩
    · refine Memory.wfFrom_cons.mpr ⟨h'.1, h'.2.1, h'.2.2.1, h'.2.2.2.1, ?_⟩
      exact ih h'.2.2.2.2 (fun e he => hm e (by simp [he])) (by omega)

/-- A write keeps the canonical form. -/
theorem Memory.wf_write {m : Memory} (a v : Nibble) (h : m.wf = true) : (m.write a v).wf = true := by
  unfold Memory.write Memory.wf
  split
  · exact Memory.wfFrom_erase _ h
  · rename_i hv
    refine Memory.wfFrom_insert (Memory.wfFrom_erase _ h) (Memory.ne_of_mem_erase m a.toNat) (Nat.zero_le _)
      a.isLt ?_ ?_
    · have := v.isLt
      simp only [BitVec.toNat_setWidth]
      omega
    · simpa using hv

theorem Memory.wf_writeWide {m : Memory} (addr value : Nat) (h : m.wf = true) :
    (m.writeWide addr value).wf = true :=
  Memory.wf_write _ _ h

theorem Memory.wf_storeFrom {m : Memory} (i : Nat) (bytes : List Nat) (h : m.wf = true) :
    (m.storeFrom i bytes).wf = true := by
  induction bytes generalizing m i with
  | nil => exact h
  | cons b bytes ih => exact ih (i + 1) (Memory.wf_writeWide i b h)

/-- Loading a program keeps the canonical form. -/
theorem Memory.wf_loadProgram {m : Memory} (bytes : List Nat) (h : m.wf = true) :
    (m.loadProgram bytes).wf = true :=
  Memory.wf_storeFrom 0 _ h

theorem Memory.wf_clear : Memory.clear.wf = true := rfl

theorem State.wf_reset_mem : State.reset.mem.wf = true := rfl

end Sys2Proof.Machine
end

