-- ==== Sys2Proof/Laws/PerInstr.lean ====
section
/-! SUPPORT. The per-instruction family EncodedShape: an instruction's cells are its opcode cell and, exactly when
the opcode takes one, its operand cell (R51, R55, R58). -/

namespace Sys2Proof.Laws.EncodedShape

def Statement (i : Instr) : Prop :=
  (encode i).head? = some i.opcode ∧ (encode i).length = (if needsOperand i.opcode then 2 else 1)
    ∧ i.operand.isSome = needsOperand i.opcode

theorem nop : Statement .nop := ⟨rfl, rfl, rfl⟩
theorem load (k : Nibble) : Statement (.load k) := ⟨rfl, rfl, rfl⟩
theorem store (k : Nibble) : Statement (.store k) := ⟨rfl, rfl, rfl⟩
theorem add (k : Nibble) : Statement (.add k) := ⟨rfl, rfl, rfl⟩
theorem sub (k : Nibble) : Statement (.sub k) := ⟨rfl, rfl, rfl⟩
theorem and (k : Nibble) : Statement (.and k) := ⟨rfl, rfl, rfl⟩
theorem or (k : Nibble) : Statement (.or k) := ⟨rfl, rfl, rfl⟩
theorem xor (k : Nibble) : Statement (.xor k) := ⟨rfl, rfl, rfl⟩
theorem jump (k : Nibble) : Statement (.jump k) := ⟨rfl, rfl, rfl⟩
theorem jz (k : Nibble) : Statement (.jz k) := ⟨rfl, rfl, rfl⟩
theorem ldi (k : Nibble) : Statement (.ldi k) := ⟨rfl, rfl, rfl⟩
theorem inc : Statement .inc := ⟨rfl, rfl, rfl⟩
theorem dec : Statement .dec := ⟨rfl, rfl, rfl⟩
theorem cmp (k : Nibble) : Statement (.cmp k) := ⟨rfl, rfl, rfl⟩
theorem jnz (k : Nibble) : Statement (.jnz k) := ⟨rfl, rfl, rfl⟩
theorem halt : Statement .halt := ⟨rfl, rfl, rfl⟩

end Sys2Proof.Laws.EncodedShape
end

