-- ==== Sys2Proof/Laws/Step.lean ====
section
/-! SUPPORT. What one step can do, said once. -/

namespace Sys2Proof.Machine

theorem step_halted {s : State} (h : s.halted = true) : step s = .next s := by simp [step, h]

theorem step_running {s : State} (h : s.halted = false) : step s = exec s.fetchInstr s.beginCycle := by
  simp [step, h]

/-- What the next fetch reads after a table word is placed: both cells, at every value of `PC`. -/
theorem State.fetchInstr_placeAtFetch (s : State) (cells : Nibble × Nibble) :
    (s.placeAtFetch cells).fetchInstr = decode cells.1 cells.2 := by
  have hp : (s.placeAtFetch cells).pc = s.pc := rfl
  have ha : (s.placeAtFetch cells).operandAddress = s.operandAddress := rfl
  have hne : s.pc ≠ s.operandAddress := by
    rw [State.operandAddress_eq]; generalize s.pc = p; revert p; decide
  have h1 : (s.placeAtFetch cells).memRead s.pc = cells.1 := by
    change ((s.memWrite s.pc cells.1).memWrite s.operandAddress cells.2).memRead s.pc = cells.1
    rw [State.memRead_memWrite, if_neg hne, State.memRead_memWrite_same]
  have h2 : (s.placeAtFetch cells).memRead s.operandAddress = cells.2 :=
    State.memRead_memWrite_same _ _ _
  unfold State.fetchInstr
  rw [ha, hp, h1, h2]

end Sys2Proof.Machine
end

