-- ==== Sys2Proof/Tests/Slice0.lean ====
section
/-! SUPPORT. The model's own tests. Expected values are from 95_test_vectors.md (its section is named) unless a
comment says that they were worked out by hand from a rule. Then the witnesses: for each statement with hypotheses, a
state and operands that meet them. -/

namespace Sys2Proof.Tests

open Sys2Proof.Machine

/-! ### Decoding: the words of 30_encoding.md R52, one for each constructor (section 5) -/

theorem test_decode_nop : decode 0b0000#4 0x7#4 = .nop := by decide
theorem test_decode_load : decode 0b0001#4 0xE#4 = .load 14 := by decide
theorem test_decode_store : decode 0b0010#4 0xF#4 = .store 15 := by decide
theorem test_decode_add : decode 0b0011#4 0xD#4 = .add 13 := by decide
theorem test_decode_sub : decode 0b0100#4 0x0#4 = .sub 0 := by decide
theorem test_decode_and : decode 0b0101#4 0x5#4 = .and 5 := by decide
theorem test_decode_or : decode 0b0110#4 0xA#4 = .or 10 := by decide
theorem test_decode_xor : decode 0b0111#4 0x7#4 = .xor 7 := by decide
theorem test_decode_jump : decode 0b1000#4 0x0#4 = .jump 0 := by decide
theorem test_decode_jz : decode 0b1001#4 0x9#4 = .jz 9 := by decide
theorem test_decode_ldi : decode 0b1010#4 0xF#4 = .ldi 15 := by decide
theorem test_decode_inc : decode 0b1011#4 0x3#4 = .inc := by decide
theorem test_decode_dec : decode 0b1100#4 0xC#4 = .dec := by decide
theorem test_decode_cmp : decode 0b1101#4 0x1#4 = .cmp 1 := by decide
theorem test_decode_jnz : decode 0b1110#4 0x4#4 = .jnz 4 := by decide
theorem test_decode_halt : decode 0b1111#4 0xF#4 = .halt := by decide

/-- R60: no opcode but `0xF` reaches the decoder's last arm. -/
theorem test_only_opcode_f_is_halt : ∀ o k : Nibble, decode o k = .halt → o = 0xF#4 := by decide
theorem test_encode_two_cells : encode (.store 15) = [0x2#4, 0xF#4] := by decide
theorem test_encode_one_cell : encode .dec = [0xC#4] := by decide
theorem test_cells_end_in_operand : decodeCells [0xA#4] = .error .noOperandCell := rfl
theorem test_no_cells : decodeCells [] = .error .noOpcodeCell := rfl
/-- 98_reader.md: the opcode is bits 3..0 of the table word; by hand, 0xE1 is `LOAD 0xE`. -/
theorem test_table_word_load : decodeTableWord 8 0xE1 = some (.load 14) := by decide
theorem test_table_word_halt : decodeTableWord 8 0x0F = some .halt := by decide

/-! ### WellFormed: a term each check refuses, and one it takes -/

theorem test_unknown_mnemonic_ill_formed : AsmInstruction.wellFormed ⟨"FOO".toList, none⟩ = false := by decide
theorem test_missing_operand_ill_formed : AsmInstruction.wellFormed ⟨"LDI".toList, none⟩ = false := by decide
theorem test_extra_operand_ill_formed : AsmInstruction.wellFormed ⟨"NOP".toList, some 3⟩ = false := by decide
theorem test_alias_well_formed : AsmInstruction.wellFormed ⟨"LD".toList, some 3⟩ = true := by decide
theorem test_wide_element_ill_formed : streamWellFormed [0xF, 0x1A] = false := by decide
theorem test_memory_unsorted_ill_formed : Memory.wf [(3, 1), (2, 1)] = false := by decide
theorem test_memory_repeat_ill_formed : Memory.wf [(3, 1), (3, 2)] = false := by decide
theorem test_memory_address_sixteen_ill_formed : Memory.wf [(16, 1)] = false := by decide
theorem test_memory_wide_byte_ill_formed : Memory.wf [(3, 0x11)] = false := by decide
theorem test_memory_zero_entry_ill_formed : Memory.wf [(3, 0)] = false := by decide

/-! ### Adders and ALU (sections 2 and 3) -/

theorem test_half_adder_both : halfAdder true true = ⟨false, true⟩ := by decide
theorem test_full_adder_101 : fullAdder true false true = ⟨false, true⟩ := by decide
theorem test_chain_5_3 : adderChain 5 3 = ⟨8, true, true, true, false⟩ := by decide
theorem test_chain_6_7 : adderChain 6 7 = ⟨13, false, true, true, false⟩ := by decide
theorem test_neg_table : [0, 1, 8, 15].map neg = [0, 15, 8, 1] := by decide
theorem test_sub_5_7 : alu 5 7 .subtract = ⟨14, false, false⟩ := by decide
theorem test_sub_of_zero : alu 9 0 .subtract = ⟨9, false, false⟩ := by decide
theorem test_and_c_5 : alu 12 5 .and = ⟨4, false, false⟩ := by decide
theorem test_or_c_5 : alu 12 5 .or = ⟨13, false, false⟩ := by decide
theorem test_xor_c_5 : alu 12 5 .xor = ⟨9, false, false⟩ := by decide
theorem test_add_masks_operands : aluCompute 0x1F 0x11 .add = ⟨0, true, true⟩ := by decide

/-! ### Memory, registers, reset (section 4) -/

theorem test_write_wraps_address : Memory.writeWide [] 0x1F 7 = [(15, 7)] := by decide
theorem test_write_masks_value : Memory.writeWide [] 3 0x1A = [(3, 10)] := by decide
theorem test_write_zero_leaves_no_entry : Memory.writeWide [(3, 5)] 3 16 = [] := by decide
theorem test_load_keeps_cells_beyond : Memory.loadProgram [(0, 10), (1, 5), (2, 15)] [0xF] = [(0, 15), (1, 5), (2, 15)] := by
  decide
theorem test_load_truncates :
    (Memory.loadProgram [] [1, 2, 3, 4, 5, 6, 7, 8, 9, 10, 11, 12, 13, 14, 15, 1, 2, 3]).lookup 15 = 1 := by decide
theorem test_increment_wraps : (State.setPc State.reset 15).advanceTwo.pc = 1 := by decide
theorem test_decrement_wraps : (State.reset.decReg .acc).acc = 15 := by decide
theorem test_update_flags_overwrites :
    ((State.reset.updateFlags 0 true).updateFlags 5 false).z = false := by decide

/-! ### Every instruction, one cycle (section 6) -/

/-- A Running CPU with the given `ACC PC Z C` and the given cells written. -/
def stateOf (acc pc : Nibble) (z c : Bool) (cells : List (Nat × Nat)) : State :=
  { State.reset with
    acc := acc, pc := pc, z := z, c := c,
    mem := cells.foldl (fun m e => Memory.writeWide m e.1 e.2) [] }

/-- `ACC PC Z C` after a step, as the vectors write a state. -/
def visible : Host.Outcome State Fault Refusal → Option (Nibble × Nibble × Bool × Bool)
  | .next t => some (t.acc, t.pc, t.z, t.c)
  | .fault _ => none
  | .refused _ => none

/-- A cell of memory after a step. -/
def cellAfter (a : Nibble) : Host.Outcome State Fault Refusal → Option Nibble
  | .next t => some (t.memRead a)
  | .fault _ => none
  | .refused _ => none

theorem test_load_keeps_carry :
    visible (step (stateOf 0 8 false true [(8, 1), (9, 14), (14, 5)])) = some (5, 10, false, true) := by decide
theorem test_load_wraps :
    visible (step (stateOf 9 15 false true [(15, 1), (0, 3)])) = some (0, 1, true, true) := by decide
theorem test_store_own_operand :
    cellAfter 7 (step (stateOf 15 6 false true [(6, 2), (7, 7)])) = some 15 := by decide
theorem test_store_zero_keeps_flags :
    visible (step (stateOf 0 2 true true [(2, 2), (3, 14), (14, 9)])) = some (0, 4, true, true) := by decide
theorem test_ldi_parameter_rows :
    [LdiFlags.none, .zeroOnly, .zeroAndClearCarry].map
        (fun p => visible (.next ((stateOf 9 0 true true []).loadImmediate p 5))) =
      [some (5, 2, true, true), some (5, 2, false, true), some (5, 2, false, false)] := by decide
theorem test_ldi_step_acc :
    (visible (step (stateOf 3 15 false true [(15, 10), (0, 7)]))).map (fun v => (v.1, v.2.1)) = some (7, 1) := by decide
theorem test_add_to_sixteen :
    visible (step (stateOf 7 10 false false [(10, 3), (11, 13), (13, 9)])) = some (0, 12, true, true) := by decide
theorem test_add_zero_clears_carry :
    visible (step (stateOf 7 0 true true [(0, 3), (1, 13)])) = some (7, 2, false, false) := by decide
theorem test_sub_zero_subtrahend :
    visible (step (stateOf 5 0 false true [(0, 4), (1, 13)])) = some (5, 2, false, false) := by decide
theorem test_sub_equal :
    visible (step (stateOf 5 0 false false [(0, 4), (1, 13), (13, 5)])) = some (0, 2, true, true) := by decide
theorem test_and_clears_carry :
    visible (step (stateOf 12 4 false true [(4, 5), (5, 14), (14, 5)])) = some (4, 6, false, false) := by decide
theorem test_or_step :
    visible (step (stateOf 12 0 false true [(0, 6), (1, 13), (13, 5)])) = some (13, 2, false, false) := by decide
theorem test_xor_equal :
    visible (step (stateOf 9 0 false true [(0, 7), (1, 13), (13, 9)])) = some (0, 2, true, false) := by decide
theorem test_inc_wraps :
    visible (step (stateOf 15 3 false false [(3, 11)])) = some (0, 4, true, true) := by decide
theorem test_inc_at_address_f :
    visible (step (stateOf 4 15 false false [(15, 11)])) = some (5, 0, false, false) := by decide
theorem test_dec_wraps :
    visible (step (stateOf 0 4 true true [(4, 12)])) = some (15, 5, false, false) := by decide
theorem test_dec_to_zero :
    visible (step (stateOf 1 4 false false [(4, 12)])) = some (0, 5, true, true) := by decide
theorem test_cmp_equal :
    visible (step (stateOf 5 2 false false [(2, 13), (3, 14), (14, 5)])) = some (5, 4, true, true) := by decide
theorem test_cmp_smaller :
    visible (step (stateOf 3 0 false true [(0, 13), (1, 14), (14, 5)])) = some (3, 2, false, false) := by decide
theorem test_nop_wraps : visible (step (stateOf 9 15 false true [])) = some (9, 0, false, true) := by decide
theorem test_jump_own_operand :
    visible (step (stateOf 3 2 false false [(2, 8), (3, 3)])) = some (3, 3, false, false) := by decide
theorem test_jz_tests_flag_only :
    visible (step (stateOf 0 3 false true [(3, 9), (4, 11)])) = some (0, 5, false, true) := by decide
theorem test_jz_taken_at_address_f :
    visible (step (stateOf 5 15 true false [(15, 9), (0, 9)])) = some (5, 9, true, false) := by decide
theorem test_jnz_taken :
    visible (step (stateOf 2 5 false true [(5, 14), (6, 4)])) = some (2, 4, false, true) := by decide
theorem test_jnz_not_taken :
    visible (step (stateOf 0 14 true false [(14, 14), (15, 4)])) = some (0, 0, true, false) := by decide
theorem test_halt_keeps_pc :
    visible (step (stateOf 0 15 true true [(15, 15)])) = some (0, 15, true, true) := by decide

/-- The state after a step, if there is one. -/
def nextOf : Host.Outcome State Fault Refusal → Option State
  | .next t => some t
  | .fault _ => none
  | .refused _ => none

theorem test_halt_whole_state :
    nextOf (step (stateOf 0 0 false false [(0, 15)])) =
      some { stateOf 0 0 false false [(0, 15)] with ir := 15, halted := true, cycles := 1 } := by decide
theorem test_fetch_word_runs_inc : visible (step (State.reset.withFetchWord 8 0x0B)) = some (1, 1, false, false) := by
  decide

/-! ### Assembler and disassembler (section 8) -/

/-- Assembly of a source given as a string. -/
def assembleString (source : String) : AsmOutcome := assemble source.toList

theorem test_assemble_aliases :
    assembleString "LD 14\nST 0x0f\nJMP 0\nHLT" = .ok [1, 14, 2, 15, 8, 0, 15] [] := by decide
theorem test_assemble_labels :
    assembleString "; count down\nstart:\n  LDI 3   ; three\n\nloop:\n\tDEC\n  JNZ 2\n  HALT" =
      .ok [10, 3, 12, 14, 2, 15] [("start".toList, 0), ("loop".toList, 2)] := by decide
theorem test_assemble_carriage_returns : assembleString "LDI 007\r\nHALT:\r\n" = .ok [10, 7] [("HALT".toList, 2)] := by decide
theorem test_error_out_of_range : assembleString "LDI 5\nSTORE 0x10" = .error 2 .operandOutOfRange := by decide
theorem test_error_label_reference :
    assembleString "loop:\nDEC\nJNZ loop\nHALT" = .error 3 .invalidLiteral := by decide
theorem test_error_no_digits : assembleString "LDI 0x" = .error 1 .invalidLiteral := by decide
theorem test_error_capital_x : assembleString "LDI 0X5" = .error 1 .invalidLiteral := by decide
theorem test_error_unknown : assembleString "LDI 5\n\nFOO 3" = .error 3 .unknownMnemonic := by decide
theorem test_error_label_and_instruction : assembleString "loop: DEC" = .error 1 .unknownMnemonic := by decide
theorem test_error_missing : assembleString "NOP\nNOP\nSTORE" = .error 3 .missingOperand := by decide
theorem test_refuse_case : assembleString "Halt" = .refused .caseVariant := by decide
theorem test_refuse_operand : assembleString "HLT 0" = .refused .unexpectedOperand := by decide
theorem test_refuse_three_tokens : assembleString "loop: LDI 5" = .refused .tooManyTokens := by decide
theorem test_refuse_duplicate : assembleString "a:\na:\nHALT" = .refused .duplicateLabel := by decide
theorem test_refuse_empty_label : assembleString ":" = .refused .emptyLabel := by decide
theorem test_refuse_after_error : assembleString "FOO\nldi 5" = .refused .caseVariant := by decide
theorem test_disassemble_short : disassemble [10, 5, 2] = some [⟨0, "LDI", some 5⟩, ⟨2, "STORE", none⟩] := by decide
theorem test_disassemble_past_halt :
    disassemble [15, 15, 0] = some [⟨0, "HALT", none⟩, ⟨1, "HALT", none⟩, ⟨2, "NOP", none⟩] := by decide
theorem test_disassemble_refuses_wide : disassemble [0x1A] = none := by decide

/-! ### Witnesses: states and operands that meet the hypotheses of the statements -/

theorem witness_EqualContentsAreEqualMemories :
    Memory.wf [(0, 1), (15, 15)] = true ∧
      ∀ a : Nibble, Memory.read [(0, 1), (15, 15)] a = Memory.read [(0, 1), (15, 15)] a := by decide

theorem witness_RegisterOperationsWrap : Reg.acc ≠ Reg.pc ∧ FlagReg.zero ≠ FlagReg.carry := by decide

theorem witness_AluBitwiseIsOneGatePerBit : 3 < 4 ∧ (AluOp.xor = .and ∨ AluOp.xor = .or ∨ AluOp.xor = .xor) := by decide

/-- A two-cell instruction across the wrap, and a one-cell one. -/
theorem witness_StepRunsTheInstructionAtPc :
    ((stateOf 0 15 false false [(15, 1), (0, 3)]).halted = false ∧
      (stateOf 0 15 false false [(15, 1), (0, 3)]).memRead 15 = (Instr.load 3).opcode ∧
      ∀ k, (Instr.load 3).operand = some k →
        (stateOf 0 15 false false [(15, 1), (0, 3)]).memRead (15 + 1) = k) ∧
    ((stateOf 0 0 false false [(0, 11)]).halted = false ∧
      (stateOf 0 0 false false [(0, 11)]).memRead 0 = Instr.inc.opcode ∧
      ∀ k, Instr.inc.operand = some k → (stateOf 0 0 false false [(0, 11)]).memRead (0 + 1) = k) := by decide

theorem witness_CycleWritesIrAndCounts : State.reset.halted = false := by decide

theorem witness_HaltedCycleChangesNothing : (State.reset.setHalted true).halted = true := by decide

/-- Running at a `HALT`, Running elsewhere, Halted; and the host's operations of each clause. -/
theorem witness_OnlyHaltLeavesRunning :
    ((stateOf 0 0 false false [(0, 15)]).halted = false ∧
      decode ((stateOf 0 0 false false [(0, 15)]).memRead 0) ((stateOf 0 0 false false [(0, 15)]).memRead 1) = .halt) ∧
    (State.reset.halted = false ∧ decode (State.reset.memRead 0) (State.reset.memRead 1) ≠ .halt) ∧
    (State.reset.setHalted true).halted = true ∧
    Transaction.write 0 1 ≠ .reset ∧ Transaction.write 0 1 ≠ .cycle ∧ (∀ n, Transaction.write 0 1 ≠ .run n) ∧
    (∃ t, perform (.run 2) (stateOf 0 15 false false [(0, 15)]) = .next t ∧ t.halted = true) :=
  ⟨by decide, by decide, by decide, by decide, by decide, fun _ h => (nomatch h), ⟨_, rfl, rfl⟩⟩

/-- A store to its own operand cell, across the wrap. -/
theorem witness_StoreIsSeenByLaterFetches :
    (stateOf 5 15 false false [(15, 2)]).halted = false ∧ (stateOf 5 15 false false [(15, 2)]).memRead 15 = 0x2#4 := by
  decide

theorem witness_EveryInstructionKeepsItsFrame :
    writesAcc (.cmp 3) = false ∧ storedCell (.cmp 3) = none ∧ storedCell (.store 15) = some 15 := by decide

theorem witness_StepKeepsInvariant :
    (stateOf 0 0 false false [(0, 15)]).Inv ∧
      step (stateOf 0 0 false false [(0, 15)]) =
        .next { stateOf 0 0 false false [(0, 15)] with ir := 15, halted := true, cycles := 1 } :=
  ⟨⟨by decide, by decide⟩, rfl⟩

theorem witness_EveryReachableStateHasInvariant : Reachable (construct.hostWrite 0x1F 7) :=
  .perform (.write 0x1F 7) .construct rfl

theorem witness_RunsCompose : run 2 State.reset = .next { State.reset with pc := 2, cycles := 2 } := rfl

theorem witness_HostOnlyStateNeverAffectsARun :
    AgreeForPrograms State.reset { State.reset with c := true, ir := 5, cycles := 7 } := ⟨rfl, rfl, rfl, rfl, rfl⟩

theorem witness_EncodeOfDecodedStream : decodeStream [0x1#4, 0xE#4, 0xF#4] = .ok [.load 14, .halt] := rfl

/-- One list of lines for each outcome, and a label defined twice. -/
theorem witness_AssemblyOutcomeFollowsTheLines :
    assembleLines [.blank, .error .unknownMnemonic, .error .missingOperand] = .error 2 .unknownMnemonic ∧
    assembleLines [.error .missingOperand, .refused .caseVariant] = .refused .caseVariant ∧
    assembleLines [.label ['a'], .label ['a']] = .refused .duplicateLabel ∧
    assembleLines [.label ['a'], .instr ⟨"INC".toList, none⟩] = .ok [11] [(['a'], 0)] := by decide

/-- A label at the very end of the stream and one at its start, and lines that are well formed. -/
theorem witness_OffsetsAgreeWithBytes :
    assembleLines [.instr ⟨"LD".toList, some 3⟩, .label ['z']] = .ok [1, 3] [(['z'], 2)] ∧
    assembleLines [.label ['a'], .instr ⟨"LD".toList, some 3⟩] = .ok [1, 3] [(['a'], 0)] ∧
    ∀ i, Line.instr i ∈ [Line.instr ⟨"LD".toList, some 3⟩, .label ['z']] → i.wellFormed = true := by
  refine ⟨by decide, by decide, fun i h => ?_⟩
  have : i = ⟨"LD".toList, some 3⟩ := by simpa using h
  subst this
  decide

theorem witness_AcceptedLinesAreWellFormed :
    classifyLine "  LDI 0xF ; fifteen".toList = .instr ⟨"LDI".toList, some 15⟩ := by decide

/-- A bare label name, one that begins with a digit, and no token at all are no literals. -/
theorem witness_LabelsInfluenceNoByte :
    (opcodeOfMnemonic "JNZ".toList = some 14 ∧ needsOperand 14 = true) ∧
    (¬ IsLiteral ['l', 'o', 'o', 'p'] ∧ ¬ IsLiteral ['5', 'h'] ∧ ¬ IsLiteral []) ∧
    assembleLines [.label ['a'], .instr ⟨"INC".toList, none⟩] = .ok [11] [(['a'], 0)] := by
  refine ⟨by decide, ⟨?_, ?_, ?_⟩, by decide⟩ <;> rintro (⟨ds, h, -⟩ | ⟨h, hd⟩)
  · cases h
  · simp [decimalDigits] at hd
  · cases h
  · simp [decimalDigits] at hd
  · cases h
  · exact h rfl

/-- The literals `15` and `16`, on both sides of the bound, and `0xE` in both cases of its digit. -/
theorem witness_LiteralsAreReadAsNumbers :
    ([1, 5] : List (Fin 10)) ≠ [] ∧ ([1, 6] : List (Fin 10)) ≠ [] ∧ ([(true, 14)] : List (Bool × Fin 16)) ≠ [] ∧
      ([(false, 1), (false, 0)] : List (Bool × Fin 16)) ≠ [] ∧
      hexDigitChar true 14 = 'E' ∧ hexDigitChar false 14 = 'e' ∧ IsLiteral ['0', 'x', 'E'] ∧ IsLiteral ['0', '0', '7'] := by
  refine ⟨by decide, by decide, by decide, by decide, by decide, by decide, .inl ⟨['E'], rfl, by decide, by simp [hexDigits, decimalDigits]⟩,
    .inr (by simp [decimalDigits])⟩

theorem witness_DisassemblyReversesAssembly : assembleString "x:\nJMP 0 ; on\nHLT" = .ok [8, 0, 15] [(['x'], 0)] := by decide

theorem witness_AssemblyReversesDisassembly : ∃ is, decodeStream [0x8#4, 0x0#4, 0xF#4] = .ok is := ⟨_, rfl⟩

theorem witness_AssembledProgramIsWhatIsFetched :
    assembleString "INC\nJMP 0" = .ok [11, 8, 0] [] ∧ ([11, 8, 0] : List Nibble).length ≤ 16 ∧
      (1, ⟨"JMP".toList, some 0⟩) ∈ sourceInstructions "INC\nJMP 0".toList := by decide

end Sys2Proof.Tests
end

section
/-! The host's access to memory at addresses of any width (R31 to R33), and the frame of its write. -/

namespace Sys2Proof.Machine

/-- Two addresses select the same cell exactly when they agree modulo 16 (R31). -/
theorem mask_eq_mask_iff (a b : Nat) : mask a = mask b ↔ a % 16 = b % 16 := by
  rw [← BitVec.toNat_inj, toNat_mask, toNat_mask]

/-- R32 and R33 at addresses and values of any width. -/
theorem Memory.readWide_writeWide (m : Memory) (addr value a : Nat) :
    (m.writeWide addr value).readWide a = if a % 16 = addr % 16 then mask value else m.readWide a := by
  have h : (m.writeWide addr value).readWide a = if mask a = mask addr then mask value else m.readWide a :=
    Memory.read_write m (mask addr) (mask value) (mask a)
  simpa only [mask_eq_mask_iff] using h

theorem State.hostRead_hostWrite (s : State) (addr value a : Nat) :
    (s.hostWrite addr value).hostRead a = if a % 16 = addr % 16 then mask value else s.hostRead a :=
  Memory.readWide_writeWide s.mem addr value a

theorem State.sameFlags_hostWrite (s : State) (addr value : Nat) : SameFlags s (s.hostWrite addr value) :=
  ⟨s.hostWrite_z addr value, s.hostWrite_c addr value⟩

theorem State.sameControl_hostWrite (s : State) (addr value : Nat) : SameControl s (s.hostWrite addr value) :=
  ⟨s.hostWrite_ir addr value, s.hostWrite_halted addr value, s.hostWrite_cycles addr value⟩

theorem perform_write (s : State) (addr value : Nat) :
    perform (.write addr value) s = .next (s.hostWrite addr value) := rfl

/-- Settles O6: the host's write is `hostWrite`, whose effect on reads is `hostRead_hostWrite` and whose frame is
one lemma per component. -/
theorem writeChangesOneCell : Obligations.WriteChangesOneCell := by
  intro s addr value
  exact ⟨s.hostWrite addr value, perform_write s addr value, s.hostRead_hostWrite addr value,
    s.hostWrite_acc addr value, s.hostWrite_pc addr value,
    s.sameFlags_hostWrite addr value, s.sameControl_hostWrite addr value⟩

end Sys2Proof.Machine
end

section
/-! The length of an instruction in cells (30_encoding.md, R51 and R55). -/

namespace Sys2Proof

/-- The one-cell opcodes, listed (R55). -/
theorem needsOperand_eq_false_iff (o : Nibble) :
    needsOperand o = false ↔ o = 0x0#4 ∨ o = 0xB#4 ∨ o = 0xC#4 ∨ o = 0xF#4 := by
  simp only [needsOperand, Bool.not_eq_false', Bool.or_eq_true, beq_iff_eq, or_assoc]

/-- Format N ignores the cell after the opcode (R51). -/
theorem decode_eq_of_needsOperand_eq_false {o : Nibble} (h : needsOperand o = false) (k k' : Nibble) :
    decode o k = decode o k' := by
  obtain rfl | rfl | rfl | rfl := (needsOperand_eq_false_iff o).mp h <;> rfl

/-- Format K takes the next cell as its operand, whatever that cell is. -/
theorem decodeCells_of_needsOperand {o : Nibble} (h : needsOperand o = true) (k : Nibble) (rest : List Nibble) :
    decodeCells (o :: k :: rest) = .ok (decode o k, rest) := by
  simp [decodeCells, h]

/-- Format N leaves every later cell; no next cell has to exist. -/
theorem decodeCells_of_needsOperand_eq_false {o : Nibble} (h : needsOperand o = false) (rest : List Nibble) :
    decodeCells (o :: rest) = .ok (decode o 0, rest) := by
  simp [decodeCells, h]

/-- Settles O42, by the two formats: format K takes the next cell, and format N leaves it, so that what it decodes
to is the same with that cell as with `0`. -/
theorem opcodeTellsLength : Obligations.OpcodeTellsLength := by
  intro o k rest
  simp only [← needsOperand_eq_false_iff]
  cases h : needsOperand o with
  | false =>
    rw [decodeCells_of_needsOperand_eq_false h, decode_eq_of_needsOperand_eq_false h 0 k, if_pos rfl]
  | true =>
    rw [decodeCells_of_needsOperand h, if_neg nofun]

end Sys2Proof
end

section
/-! The arithmetic of the 4-bit chain, stage by stage (40_gates_adders.md, R73, R75 and R76). -/

namespace Sys2Proof.Machine

/-- The numeric reading of one stage (R73). -/
theorem fullAdder_toNat (a b cin : Bit) :
    2 * (fullAdder a b cin).carry.toNat + (fullAdder a b cin).sum.toNat = a.toNat + b.toNat + cin.toNat := by
  revert a b cin; decide

/-- Four bits weigh at most 15, so that no bit is cut off. -/
theorem toNat_nibbleOfBits (b0 b1 b2 b3 : Bit) :
    (nibbleOfBits b0 b1 b2 b3).toNat = b0.toNat + 2 * b1.toNat + 4 * b2.toNat + 8 * b3.toNat := by
  have h0 := b0.toNat_le
  have h1 := b1.toNat_le
  have h2 := b2.toNat_le
  have h3 := b3.toNat_le
  exact Nat.mod_eq_of_lt (by omega)

/-- A Nibble is made of its bits 0 to 3. -/
theorem nibbleOfBits_getLsbD (a : Nibble) :
    nibbleOfBits (a.getLsbD 0) (a.getLsbD 1) (a.getLsbD 2) (a.getLsbD 3) = a := by
  revert a; decide

theorem toNat_eq_bits (a : Nibble) :
    a.toNat = (a.getLsbD 0).toNat + 2 * (a.getLsbD 1).toNat + 4 * (a.getLsbD 2).toNat + 8 * (a.getLsbD 3).toNat := by
  rw [← toNat_nibbleOfBits, nibbleOfBits_getLsbD]

/-- The chain loses nothing (R76): each stage's carry out, of weight `2^(i+1)`, is the carry in of the next, so the
carries between the stages cancel in the weighted sum of the four stages' readings. -/
theorem adderChain_toNat (a b : Nibble) :
    16 * (adderChain a b).carry.toNat + (adderChain a b).result.toNat = a.toNat + b.toNat := by
  have stage0 := fullAdder_toNat (a.getLsbD 0) (b.getLsbD 0) false
  have stage1 := fullAdder_toNat (a.getLsbD 1) (b.getLsbD 1) (adderChain a b).stage0
  have stage2 := fullAdder_toNat (a.getLsbD 2) (b.getLsbD 2) (adderChain a b).stage1
  have stage3 := fullAdder_toNat (a.getLsbD 3) (b.getLsbD 3) (adderChain a b).stage2
  rw [toNat_eq_bits a, toNat_eq_bits b]
  simp only [adderChain, toNat_nibbleOfBits, Bool.toNat_false] at *
  omega

/-- Settles O2: the chain's carry and result are the quotient and the remainder of `a + b` by 16, since a result is
below 16. -/
theorem chainAddsModSixteen : Obligations.ChainAddsModSixteen := by
  intro a b
  have sum_eq := adderChain_toNat a b
  have result_lt : (adderChain a b).result.toNat < 16 := (adderChain a b).result.isLt
  refine ⟨by omega, ?_, sum_eq⟩
  cases h : (adderChain a b).carry with
  | false =>
    rw [h, Bool.toNat_false] at sum_eq
    exact (decide_eq_false (by omega)).symm
  | true =>
    rw [h, Bool.toNat_true] at sum_eq
    exact (decide_eq_true (by omega)).symm

end Sys2Proof.Machine
end

section
/-! The ALU on operands of any width: its zero output, Add, and one gate per bit (41_alu.md, R87, R88 and R91). -/

namespace Sys2Proof.Machine

/-- R87, for every operation: each of them answers through `AluResult.of`. -/
theorem alu_zero (a b : Nibble) (op : AluOp) : (alu a b op).zero = decide ((alu a b op).result.toNat = 0) := by
  have of_zero (r : Nibble) (c : Bit) : (AluResult.of r c).zero = decide ((AluResult.of r c).result.toNat = 0) :=
    decide_eq_decide.mpr BitVec.toNat_inj.symm
  cases op <;> exact of_zero _ _

/-- Settles O3: Add is the chain on the masked operands, whose law is `chainAddsModSixteen`. -/
theorem aluAddsMaskedOperands : Obligations.AluAddsMaskedOperands := by
  intro a b
  obtain ⟨result_eq, carry_eq, -⟩ := chainAddsModSixteen (mask a) (mask b)
  rw [toNat_mask, toNat_mask] at result_eq carry_eq
  exact ⟨rfl, rfl, result_eq.trans (Nat.add_mod a b 16).symm, carry_eq, alu_zero (mask a) (mask b) .add⟩

/-- A Nibble made of four bits has these bits. -/
theorem getLsbD_nibbleOfBits (bit : Nat → Bit) {i : Nat} (hi : i < 4) :
    (nibbleOfBits (bit 0) (bit 1) (bit 2) (bit 3)).getLsbD i = bit i := by
  have all_bits : ∀ b0 b1 b2 b3 : Bit,
      (nibbleOfBits b0 b1 b2 b3).getLsbD 0 = b0 ∧ (nibbleOfBits b0 b1 b2 b3).getLsbD 1 = b1 ∧
      (nibbleOfBits b0 b1 b2 b3).getLsbD 2 = b2 ∧ (nibbleOfBits b0 b1 b2 b3).getLsbD 3 = b3 := by decide
  obtain ⟨h0, h1, h2, h3⟩ := all_bits (bit 0) (bit 1) (bit 2) (bit 3)
  match i, hi with
  | 0, _ => exact h0
  | 1, _ => exact h1
  | 2, _ => exact h2
  | 3, _ => exact h3

/-- Masking keeps the bits 0 to 3. -/
theorem getLsbD_mask (v : Nat) {i : Nat} (hi : i < 4) : (mask v).getLsbD i = v.testBit i := by
  rw [mask, BitVec.getLsbD_ofNat, decide_eq_true hi, Bool.true_and]

/-- R91 for any gate: each result bit is the gate of the operand bits at its position. -/
theorem getLsbD_bitwiseGate_mask (g : Bit → Bit → Bit) (a b : Nat) {i : Nat} (hi : i < 4) :
    (bitwiseGate g (mask a) (mask b)).getLsbD i = g (a.testBit i) (b.testBit i) := by
  rw [← getLsbD_mask a hi, ← getLsbD_mask b hi]
  exact getLsbD_nibbleOfBits (fun j => g ((mask a).getLsbD j) ((mask b).getLsbD j)) hi

/-- Settles O5: And, Or and Xor are `bitwiseGate` of their gates, with the carry false by definition. -/
theorem aluBitwiseIsOneGatePerBit : Obligations.AluBitwiseIsOneGatePerBit := by
  intro a b
  constructor
  · intro i hi
    exact ⟨getLsbD_bitwiseGate_mask gateAnd a b hi, getLsbD_bitwiseGate_mask gateOr a b hi,
      getLsbD_bitwiseGate_mask gateXor a b hi⟩
  · intro op hop
    refine ⟨?_, alu_zero (mask a) (mask b) op⟩
    obtain rfl | rfl | rfl := hop <;> rfl

end Sys2Proof.Machine
end

section
/-! Completion, and the transitions between Running and Halted, of an instruction, a cycle, a run and the host's
operations (42_cpu_cycle.md, R100, R109 and R110). -/

namespace Sys2Proof.Machine

/-- The instruction at `PC` by its two cells (R103, R104). -/
theorem State.fetchInstr_eq (s : State) : s.fetchInstr = decode (s.memRead s.pc) (s.memRead (s.pc + 1)) := by
  rw [State.fetchInstr, State.operandAddress_eq]

@[simp] theorem State.jumpIf_halted (s : State) (b : Bool) (k : Nibble) : (s.jumpIf b k).halted = s.halted := by
  rw [State.jumpIf_eq, State.setPc_halted]

theorem exec_halt (s : State) : exec .halt s = .next (s.setHalted true) := rfl

/-- Every instruction but `HALT` completes and leaves `HALTED` alone. -/
theorem exec_of_ne_halt {i : Instr} (h : i ≠ .halt) (s : State) :
    ∃ t, exec i s = .next t ∧ t.halted = s.halted := by
  cases i with
  | halt => exact absurd rfl h
  | jz k => exact ⟨_, rfl, s.jumpIf_halted s.z k⟩
  | jnz k => exact ⟨_, rfl, s.jumpIf_halted (!s.z) k⟩
  | _ => exact ⟨_, rfl, rfl⟩

/-- A Running cycle completes, and halts exactly by executing `HALT` (R100). -/
theorem step_running_halts_iff {s : State} (h : s.halted = false) :
    ∃ t, step s = .next t ∧ (t.halted = true ↔ s.fetchInstr = .halt) := by
  rw [step_running h]
  by_cases hi : s.fetchInstr = .halt
  · rw [hi, exec_halt]
    exact ⟨_, rfl, iff_of_true (State.setHalted_halted _ true) rfl⟩
  · obtain ⟨t, ht, halted_eq⟩ := exec_of_ne_halt hi s.beginCycle
    have not_halted : ¬ t.halted = true := by rw [halted_eq, State.beginCycle_halted, h]; exact Bool.false_ne_true
    exact ⟨t, ht, iff_of_false not_halted hi⟩

theorem step_completes (s : State) : ∃ t, step s = .next t := by
  cases h : s.halted with
  | true => exact ⟨s, step_halted h⟩
  | false =>
    obtain ⟨t, ht, -⟩ := step_running_halts_iff h
    exact ⟨t, ht⟩

/-- A run in the Halted state executes no cycle (R110). -/
theorem run_halted {s : State} (h : s.halted = true) (n : Nat) : run n s = .next s := by
  cases n with
  | zero => rfl
  | succ n => simp only [run, h, if_true]

/-- A run in the Running state is one cycle and then the rest of the budget (R110). -/
theorem run_succ {s t : State} (h : s.halted = false) (hstep : step s = .next t) (n : Nat) :
    run (n + 1) s = run n t := by
  simp only [run, cycle, h, hstep, Bool.false_eq_true, if_false]

theorem run_completes (n : Nat) (s : State) : ∃ t, run n s = .next t := by
  induction n generalizing s with
  | zero => exact ⟨s, rfl⟩
  | succ n ih =>
    cases h : s.halted with
    | true => exact ⟨s, run_halted h (n + 1)⟩
    | false =>
      obtain ⟨u, hu⟩ := step_completes s
      rw [run_succ h hu]
      exact ih u

/-- A run that goes from Running to Halted has a cycle that executes `HALT`: the one after its first `m` cycles. -/
theorem exists_halt_of_run_halts {n : Nat} {s t : State} (h : s.halted = false) (hrun : run n s = .next t)
    (ht : t.halted = true) :
    ∃ m u, m < n ∧ run m s = .next u ∧ u.halted = false ∧ u.fetchInstr = .halt := by
  induction n generalizing s with
  | zero =>
    obtain rfl : s = t := Host.Outcome.next.inj hrun
    exact absurd ht (Bool.eq_false_iff.mp h)
  | succ n ih =>
    obtain ⟨v, hv, halts_iff⟩ := step_running_halts_iff h
    cases hvh : v.halted with
    | true => exact ⟨0, s, n.succ_pos, rfl, h, halts_iff.mp hvh⟩
    | false =>
      rw [run_succ h hv] at hrun
      obtain ⟨m, u, hm, hu, running, fetches⟩ := ih hvh hrun
      exact ⟨m + 1, u, Nat.succ_lt_succ hm, (run_succ h hv m).trans hu, running, fetches⟩

/-- Nothing the host does but `reset` leaves Halted (R100). -/
theorem perform_keeps_halted (op : Transaction) (s : State) (hop : op ≠ .reset) (h : s.halted = true) :
    ∃ t, perform op s = .next t ∧ t.halted = true := by
  cases op with
  | reset => exact absurd rfl hop
  | loadProgram bytes => exact ⟨_, rfl, (s.loadProgram_halted bytes).trans h⟩
  | cycle => exact ⟨s, step_halted h, h⟩
  | run n => exact ⟨s, run_halted h n, h⟩
  | write addr value => exact ⟨_, rfl, (s.hostWrite_halted addr value).trans h⟩

theorem perform_reset_running (s : State) : ∃ t, perform .reset s = .next t ∧ t.halted = false :=
  ⟨s.resetAll, rfl, congrArg State.halted s.resetAll_eq⟩

/-- Nothing the host does but `cycle` and `run` enters Halted (R100). -/
theorem perform_keeps_running (op : Transaction) (s : State) (hcycle : op ≠ .cycle) (hrun : ∀ n, op ≠ .run n)
    (h : s.halted = false) : ∃ t, perform op s = .next t ∧ t.halted = false := by
  cases op with
  | reset => exact perform_reset_running s
  | loadProgram bytes => exact ⟨_, rfl, (s.loadProgram_halted bytes).trans h⟩
  | cycle => exact absurd rfl hcycle
  | run n => exact absurd rfl (hrun n)
  | write addr value => exact ⟨_, rfl, (s.hostWrite_halted addr value).trans h⟩

theorem perform_completes (op : Transaction) (s : State) : ∃ t, perform op s = .next t := by
  cases op with
  | cycle => exact step_completes s
  | run n => exact run_completes n s
  | reset => exact ⟨_, rfl⟩
  | loadProgram bytes => exact ⟨_, rfl⟩
  | write addr value => exact ⟨_, rfl⟩

/-- Settles O31: one lemma per clause; the cycle's is `step_running_halts_iff`, and the run's is an induction on it
along the budget. -/
theorem onlyHaltLeavesRunning : Obligations.OnlyHaltLeavesRunning := by
  unfold Obligations.OnlyHaltLeavesRunning
  simp only [← State.fetchInstr_eq]
  exact ⟨rfl, perform_reset_running, fun _ => step_running_halts_iff, fun s h => ⟨s, step_halted h, h⟩,
    perform_keeps_halted, perform_keeps_running, fun _ _ _ => exists_halt_of_run_halts⟩

/-- Settles O32, by cases on the operation: cycles complete because every instruction does, and runs because cycles
do. -/
theorem everyOperationCompletes : Obligations.EveryOperationCompletes :=
  ⟨step_completes, perform_completes⟩

end Sys2Proof.Machine
end

section
/-! The unconditional jump, by the frame of a write to `PC` (45_control.md, R146). -/

namespace Sys2Proof.Machine

theorem State.sameFlags_setPc (s : State) (v : Nibble) : SameFlags s (s.setPc v) :=
  ⟨s.setPc_z v, s.setPc_c v⟩

theorem State.sameControl_setPc (s : State) (v : Nibble) : SameControl s (s.setPc v) :=
  ⟨s.setPc_ir v, s.setPc_halted v, s.setPc_cycles v⟩

theorem State.sameCells_setPc (s : State) (v : Nibble) : SameCells s (s.setPc v) :=
  s.setPc_memRead v

theorem exec_jump (k : Nibble) (s : State) : exec (.jump k) s = .next (s.setPc k) := rfl

/-- Settles O22: `JUMP` is a write to `PC` and nothing more, so its frame is that of `setPc`. -/
theorem jumpSetsPcToOperand : Obligations.JumpSetsPcToOperand := by
  intro k s
  exact ⟨s.setPc k, exec_jump k s, s.setPc_pc k, s.setPc_acc k,
    s.sameFlags_setPc k, s.sameControl_setPc k, s.sameCells_setPc k⟩

end Sys2Proof.Machine
end

section
/-! The decoder and the encoder undo each other, for one instruction and for a list of them (30_encoding.md,
section 3). -/

namespace Sys2Proof

/-- The three facts of the family EncodedShape, for every instruction. -/
theorem encodedShape (i : Instr) : Laws.EncodedShape.Statement i := by
  cases i <;> exact ⟨rfl, rfl, rfl⟩

theorem isSome_operand (i : Instr) : i.operand.isSome = needsOperand i.opcode :=
  (encodedShape i).2.2

/-- Decoding keeps the opcode cell (R52). -/
theorem opcode_decode (o k : Nibble) : (decode o k).opcode = o := by
  revert o k; decide

/-- Decoding keeps the operand cell in format K and drops it in format N (R51, R56). -/
theorem operand_decode (o k : Nibble) : (decode o k).operand = if needsOperand o then some k else none := by
  revert o k; decide

/-- The cells of an instruction decode to it, whatever the second cell is in format N. -/
theorem decode_opcode (i : Instr) {k : Nibble} (h : ∀ k', i.operand = some k' → k = k') : decode i.opcode k = i := by
  cases i with
  | nop | inc | dec | halt => rfl
  | _ k' => obtain rfl := h k' rfl; rfl

theorem decodeCells_encode (i : Instr) (rest : List Nibble) : decodeCells (encode i ++ rest) = .ok (i, rest) := by
  have operand_eq := isSome_operand i
  cases h : i.operand with
  | none =>
    rw [h] at operand_eq
    have decode_eq : decode i.opcode 0 = i := decode_opcode i (by simp [h])
    rw [encode, h, Option.toList_none, List.singleton_append, decodeCells_of_needsOperand_eq_false operand_eq.symm,
      decode_eq]
  | some k =>
    rw [h] at operand_eq
    have decode_eq : decode i.opcode k = i := decode_opcode i (by simp [h])
    rw [encode, h, Option.toList_some, List.cons_append, List.singleton_append,
      decodeCells_of_needsOperand operand_eq.symm, decode_eq]

/-- Settles O43. -/
theorem decodeOfEncode : Obligations.DecodeOfEncode :=
  decodeCells_encode

/-- The cells of a decoded opcode, with its operand cell in format K. -/
theorem encode_decode (o k : Nibble) : encode (decode o k) = if needsOperand o then [o, k] else [o] := by
  rw [encode, opcode_decode, operand_decode]
  cases needsOperand o <;> rfl

/-- The other direction for one instruction: it takes exactly its own cells. -/
theorem eq_encode_append_of_decodeCells {cells rest : List Nibble} {i : Instr}
    (h : decodeCells cells = .ok (i, rest)) : cells = encode i ++ rest := by
  cases cells with
  | nil => simp [decodeCells] at h
  | cons o tail =>
    cases ho : needsOperand o with
    | false =>
      rw [decodeCells_of_needsOperand_eq_false ho] at h
      obtain ⟨rfl, rfl⟩ : decode o 0 = i ∧ tail = rest := by simpa using h
      simp [encode_decode, ho]
    | true =>
      cases tail with
      | nil => simp [decodeCells, ho] at h
      | cons k tail =>
        rw [decodeCells_of_needsOperand ho] at h
        obtain ⟨rfl, rfl⟩ : decode o k = i ∧ tail = rest := by simpa using h
        simp [encode_decode, ho]

/-- A stream is its first instruction and then the stream of the cells after it. -/
theorem decodeStream_of_decodeCells {cells rest : List Nibble} {i : Instr} (h : decodeCells cells = .ok (i, rest)) :
    decodeStream cells = consDecoded i (decodeStream rest) := by
  cases cells with
  | nil => simp [decodeCells] at h
  | cons o tail =>
    cases ho : needsOperand o with
    | false =>
      rw [decodeCells_of_needsOperand_eq_false ho] at h
      obtain ⟨rfl, rfl⟩ : decode o 0 = i ∧ tail = rest := by simpa using h
      cases tail <;> simp [decodeStream, consDecoded, ho]
    | true =>
      cases tail with
      | nil => simp [decodeCells, ho] at h
      | cons k tail =>
        rw [decodeCells_of_needsOperand ho] at h
        obtain ⟨rfl, rfl⟩ : decode o k = i ∧ tail = rest := by simpa using h
        simp [decodeStream, ho]

/-- Settles O44, by induction on the program: the first instruction's cells decode to it and leave the rest. -/
theorem decodeStreamOfEncodedProgram : Obligations.DecodeStreamOfEncodedProgram := by
  intro is
  induction is with
  | nil => rfl
  | cons i is ih =>
    rw [List.flatMap_cons, decodeStream_of_decodeCells (decodeCells_encode i _), ih, consDecoded]

/-- A stream that is read to its end is empty, or begins with an instruction and goes on with such a stream. -/
theorem decodeStream_ok_cases {cells : List Nibble} {is : List Instr} (h : decodeStream cells = .ok is) :
    cells = [] ∧ is = [] ∨
      ∃ i rest js, decodeCells cells = .ok (i, rest) ∧ decodeStream rest = .ok js ∧ is = i :: js := by
  cases hc : decodeCells cells with
  | error e =>
    match cells with
    | [] => exact .inl ⟨rfl, by simpa [decodeStream, eq_comm] using h⟩
    | [o] => cases ho : needsOperand o <;> simp [decodeCells, decodeStream, ho] at hc h
    | o :: k :: rest => cases ho : needsOperand o <;> simp [decodeCells, ho] at hc
  | ok first =>
    obtain ⟨i, rest⟩ := first
    rw [decodeStream_of_decodeCells hc] at h
    cases hr : decodeStream rest with
    | error e => simp [hr, consDecoded] at h
    | ok js => exact .inr ⟨i, rest, js, rfl, hr, by simpa [hr, consDecoded, eq_comm] using h⟩

/-- Settles O45, by induction on the instructions read: the first of them took exactly its own cells. -/
theorem encodeOfDecodedStream : Obligations.EncodeOfDecodedStream := by
  intro cells is h
  induction is generalizing cells with
  | nil =>
    obtain ⟨rfl, -⟩ | ⟨i, rest, js, -, -, h⟩ := decodeStream_ok_cases h
    · rfl
    · cases h
  | cons i is ih =>
    obtain ⟨-, h⟩ | ⟨j, rest, js, hfirst, hrest, h⟩ := decodeStream_ok_cases h
    · cases h
    · obtain ⟨rfl, rfl⟩ := List.cons.inj h
      rw [List.flatMap_cons, ih rest hrest, eq_encode_append_of_decodeCells hfirst]

/-- Settles O46: each word is one entry of the opcode map R52. -/
theorem writtenWordsDecode : Obligations.WrittenWordsDecode :=
  ⟨rfl, rfl, rfl, rfl, rfl, rfl, rfl⟩

end Sys2Proof
end

section
/-! The ALU's arithmetic laws on natural numbers (41_alu.md, R89, R90 and R94). -/

namespace Sys2Proof.Machine

/-- Settles O1: the structure is the full adder's definition, and the rest is its table of eight rows. -/
theorem fullAdderAddsThreeBits : Obligations.FullAdderAddsThreeBits := by
  intro a b cin
  refine ⟨rfl, rfl, rfl, ?_, fullAdder_toNat a b cin, ?_⟩ <;> (revert a b cin; decide)

/-- The masked two's complement of a masked operand (R89). -/
theorem neg_mask (b : Nat) : neg (mask b) = mask (16 - b % 16) := by
  rw [neg_eq, ← BitVec.toNat_inj, BitVec.toNat_neg, toNat_mask, toNat_mask]

theorem toNat_alu_subtract (a b : Nibble) : (alu a b .subtract).result.toNat = (a.toNat + 16 - b.toNat) % 16 := by
  rw [alu_subtract, BitVec.toNat_sub]
  have := b.isLt
  congr 1
  omega

/-- The carry of `Subtract` is "no borrow", but for a zero subtrahend (R90). -/
theorem carry_alu_subtract (a b : Nibble) :
    (alu a b .subtract).carry = decide (b.toNat ≠ 0 ∧ a.toNat ≥ b.toNat) := by
  have zero_iff : b ≠ 0 ↔ b.toNat ≠ 0 := (BitVec.toNat_inj (x := b) (y := 0)).not.symm
  rw [alu_subtract, decide_eq_decide, zero_iff, BitVec.le_def]

/-- `Subtract` gives zero exactly on equal operands (R89). -/
theorem zero_alu_subtract (a b : Nibble) : (alu a b .subtract).zero = decide (a = b) := by
  rw [alu_subtract]; rfl

/-- Settles O4: the complement is `neg`, and the three outputs are those of `Subtract` on the masked operands. -/
theorem aluSubtractsByComplement : Obligations.AluSubtractsByComplement := by
  intro a b
  unfold aluCompute
  refine ⟨?_, ?_, ?_, ?_⟩
  · exact congrArg (aluAdd (mask a)) (neg_mask b)
  · rw [toNat_alu_subtract, toNat_mask, toNat_mask, Nat.add_sub_assoc (Nat.mod_lt b (by decide)).le]
  · rw [carry_alu_subtract, toNat_mask, toNat_mask]
  · rw [zero_alu_subtract, decide_eq_decide, mask_eq_mask_iff]

/-- The outputs of the ALU as R94 writes them: a natural number to be masked, and a carry. -/
def AluResult.ofNat (n : Nat) (carry : Bool) : AluResult := ⟨mask n, carry, decide (n % 16 = 0)⟩

/-- An ALU operation has the outputs of R94 once its result and its carry have them. -/
theorem alu_eq_ofNat {a b : Nibble} {op : AluOp} {n : Nat} {carry : Bool}
    (hresult : (alu a b op).result.toNat = n % 16) (hcarry : (alu a b op).carry = carry) :
    alu a b op = .ofNat n carry := by
  have result_eq : (alu a b op).result = mask n := by rw [← BitVec.toNat_inj, hresult, toNat_mask]
  have zero_eq : (alu a b op).zero = decide (n % 16 = 0) := by rw [alu_zero, hresult]
  rw [AluResult.ofNat, ← result_eq, ← hcarry, ← zero_eq]

theorem alu_add_eq_ofNat (a b : Nibble) :
    alu a b .add = .ofNat (a.toNat + b.toNat) (decide (a.toNat + b.toNat > 15)) := by
  obtain ⟨result_eq, carry_eq, -⟩ := chainAddsModSixteen a b
  exact alu_eq_ofNat result_eq carry_eq

theorem alu_subtract_eq_ofNat (a b : Nibble) :
    alu a b .subtract = .ofNat (a.toNat + 16 - b.toNat) (decide (b.toNat ≠ 0 ∧ a.toNat ≥ b.toNat)) :=
  alu_eq_ofNat (toNat_alu_subtract a b) (carry_alu_subtract a b)

theorem alu_and_eq_ofNat (a b : Nibble) : alu a b .and = .ofNat (a.toNat &&& b.toNat) false := by
  refine alu_eq_ofNat ?_ rfl
  rw [alu_and, ← BitVec.toNat_and, Nat.mod_eq_of_lt (a &&& b).isLt]

theorem alu_or_eq_ofNat (a b : Nibble) : alu a b .or = .ofNat (a.toNat ||| b.toNat) false := by
  refine alu_eq_ofNat ?_ rfl
  rw [alu_or, ← BitVec.toNat_or, Nat.mod_eq_of_lt (a ||| b).isLt]

theorem alu_xor_eq_ofNat (a b : Nibble) : alu a b .xor = .ofNat (a.toNat ^^^ b.toNat) false := by
  refine alu_eq_ofNat ?_ rfl
  rw [alu_xor, ← BitVec.toNat_xor, Nat.mod_eq_of_lt (a ^^^ b).isLt]

/-- INC's wrap: the sum with 1 passes 15 exactly from 15 (R94). -/
theorem alu_add_one_eq_ofNat (a : Nibble) : alu a 1 .add = .ofNat (a.toNat + 1) (decide (a.toNat = 15)) := by
  rw [alu_add_eq_ofNat]
  have := a.isLt
  congr 1
  rw [decide_eq_decide]
  change a.toNat + 1 > 15 ↔ _
  omega

/-- DEC's borrow: 1 can be taken exactly from 1 up (R94). -/
theorem alu_subtract_one_eq_ofNat (a : Nibble) :
    alu a 1 .subtract = .ofNat (a.toNat + 15) (decide (a.toNat ≥ 1)) := by
  rw [alu_subtract_eq_ofNat]
  congr 1
  rw [decide_eq_decide]
  exact and_iff_right one_ne_zero

end Sys2Proof.Machine
end

section
/-! Each instruction: what it computes, and what it leaves alone (43_data_movement.md, 44_arith_logic.md,
45_control.md). -/

namespace Sys2Proof.Machine

/-! ### What each arm of `exec` answers -/

theorem exec_nop (s : State) : exec .nop s = .next s.advanceOne := rfl

theorem exec_load (k : Nibble) (s : State) :
    exec (.load k) s = .next ((s.setAcc (s.memRead k)).loadFlags (s.memRead k)).advanceTwo := rfl

theorem exec_store (k : Nibble) (s : State) : exec (.store k) s = .next (s.memWrite k s.acc).advanceTwo := rfl

theorem exec_ldi (k : Nibble) (s : State) : exec (.ldi k) s = .next (s.loadImmediate Config.ldiFlags k) := rfl

theorem exec_add (k : Nibble) (s : State) : exec (.add k) s = .next (s.aluToAcc .add (.cell k)).advanceTwo := rfl

theorem exec_sub (k : Nibble) (s : State) : exec (.sub k) s = .next (s.aluToAcc .subtract (.cell k)).advanceTwo := rfl

theorem exec_and (k : Nibble) (s : State) : exec (.and k) s = .next (s.aluToAcc .and (.cell k)).advanceTwo := rfl

theorem exec_or (k : Nibble) (s : State) : exec (.or k) s = .next (s.aluToAcc .or (.cell k)).advanceTwo := rfl

theorem exec_xor (k : Nibble) (s : State) : exec (.xor k) s = .next (s.aluToAcc .xor (.cell k)).advanceTwo := rfl

theorem exec_inc (s : State) : exec .inc s = .next (s.aluToAcc .add .one).advanceOne := rfl

theorem exec_dec (s : State) : exec .dec s = .next (s.aluToAcc .subtract .one).advanceOne := rfl

theorem exec_cmp (k : Nibble) (s : State) :
    exec (.cmp k) s = .next (s.aluFlagsOnly .subtract (.cell k)).advanceTwo := rfl

theorem exec_jz (k : Nibble) (s : State) : exec (.jz k) s = .next (s.setPc (if s.z then k else s.pc + 2)) :=
  congrArg Host.Outcome.next (s.jumpIf_eq s.z k)

theorem exec_jnz (k : Nibble) (s : State) : exec (.jnz k) s = .next (s.setPc (if s.z then s.pc + 2 else k)) := by
  have jump_eq : s.jumpIf (!s.z) k = s.setPc (if s.z then s.pc + 2 else k) := by
    rw [State.jumpIf_eq]
    cases s.z <;> rfl
  exact congrArg Host.Outcome.next jump_eq

/-! ### The numbers in the statements -/

theorem toNat_add_one (p : Nibble) : (p + 1).toNat = (p.toNat + 1) % 16 := BitVec.toNat_add p 1

theorem toNat_add_two (p : Nibble) : (p + 2).toNat = (p.toNat + 2) % 16 := BitVec.toNat_add p 2

theorem State.toNat_advanceOne_pc (s : State) : s.advanceOne.pc.toNat = (s.pc.toNat + 1) % 16 := by
  rw [s.advanceOne_pc, toNat_add_one]

theorem State.toNat_advanceTwo_pc (s : State) : s.advanceTwo.pc.toNat = (s.pc.toNat + 2) % 16 := by
  rw [s.advanceTwo_pc, toNat_add_two]

/-- The zero test on the Nibble is the zero test on its number. -/
theorem beq_zero_eq_decide (v : Nibble) : (v == 0) = decide (v.toNat = 0) :=
  decide_eq_decide.mpr BitVec.toNat_inj.symm

theorem zero_alu_eq_beq (a b : Nibble) (op : AluOp) : (alu a b op).zero = ((alu a b op).result == 0) := by
  rw [alu_zero, beq_zero_eq_decide]

theorem toNat_alu_add (a b : Nibble) : (alu a b .add).result.toNat = (a.toNat + b.toNat) % 16 :=
  (chainAddsModSixteen a b).1

theorem carry_alu_add (a b : Nibble) : (alu a b .add).carry = decide (a.toNat + b.toNat > 15) := by
  obtain ⟨-, carry_eq, -⟩ := chainAddsModSixteen a b
  exact carry_eq

theorem toNat_alu_and (a b : Nibble) : (alu a b .and).result.toNat = a.toNat &&& b.toNat := by
  rw [alu_and, BitVec.toNat_and]

theorem toNat_alu_or (a b : Nibble) : (alu a b .or).result.toNat = a.toNat ||| b.toNat := by
  rw [alu_or, BitVec.toNat_or]

theorem toNat_alu_xor (a b : Nibble) : (alu a b .xor).result.toNat = a.toNat ^^^ b.toNat := by
  rw [alu_xor, BitVec.toNat_xor]

theorem zero_alu_or (a b : Nibble) : (alu a b .or).zero = decide (a.toNat = 0 ∧ b.toNat = 0) := by
  rw [alu_zero, toNat_alu_or, decide_eq_decide, Nat.or_eq_zero_iff]

/-- The exclusive or is zero exactly on equal operands (R134). -/
theorem zero_alu_xor (a b : Nibble) : (alu a b .xor).zero = decide (a = b) := by
  rw [alu_xor]; rfl

/-! ### Each instruction -/

/-- Settles O11. -/
theorem loadReadsCellIntoAcc : Obligations.LoadReadsCellIntoAcc := by
  intro k s
  exact ⟨_, exec_load k s, rfl, beq_zero_eq_decide (s.memRead k), rfl, State.toNat_advanceTwo_pc _,
    ⟨rfl, rfl, rfl⟩, fun _ => rfl⟩

/-- Settles O12: the advancement touches no cell, and the write is read back by `Memory.read_write`. -/
theorem storeWritesAccIntoCell : Obligations.StoreWritesAccIntoCell := by
  intro k s
  exact ⟨_, exec_store k s, s.memRead_memWrite_same k s.acc, fun _ ha => s.mem.read_write_other s.acc ha, rfl,
    ⟨rfl, rfl⟩, State.toNat_advanceTwo_pc _, ⟨rfl, rfl, rfl⟩⟩

/-- Settles O13. -/
theorem ldiLoadsImmediate : Obligations.LdiLoadsImmediate := by
  intro k s
  exact ⟨_, exec_ldi k s, rfl, rfl, rfl, State.toNat_advanceTwo_pc _, ⟨rfl, rfl, rfl⟩, fun _ => rfl⟩

/-- Settles O14: the rows are those of `ldiZero` and `ldiCarry`, and with both flags blanked nothing of
`loadImmediate_eq` names the parameter. -/
theorem ldiFlagsFollowTheParameter : Obligations.LdiFlagsFollowTheParameter := by
  intro k s
  refine ⟨exec_ldi k s, ⟨rfl, rfl⟩, ⟨beq_zero_eq_decide k, rfl⟩, ⟨beq_zero_eq_decide k, rfl⟩, fun p q => ?_⟩
  rw [State.loadImmediate_eq, State.loadImmediate_eq]

/-- Settles O15. -/
theorem addAddsCellToAcc : Obligations.AddAddsCellToAcc := by
  intro k s
  exact ⟨_, exec_add k s, toNat_alu_add _ _, carry_alu_add _ _, alu_zero _ _ _, State.toNat_advanceTwo_pc _,
    ⟨rfl, rfl, rfl⟩, fun _ => rfl⟩

/-- Settles O16. -/
theorem subSubtractsCellFromAcc : Obligations.SubSubtractsCellFromAcc := by
  intro k s
  exact ⟨_, exec_sub k s, toNat_alu_subtract _ _, zero_alu_subtract _ _, carry_alu_subtract _ _,
    State.toNat_advanceTwo_pc _, ⟨rfl, rfl, rfl⟩, fun _ => rfl⟩

/-- Settles O17: the three results and zero outputs are the ALU's; its carry is false by definition. -/
theorem logicInstructionsAreBitwise : Obligations.LogicInstructionsAreBitwise := by
  intro k s
  refine ⟨⟨_, exec_and k s, toNat_alu_and _ _, rfl, alu_zero _ _ _, ?_⟩,
    ⟨_, exec_or k s, toNat_alu_or _ _, rfl, zero_alu_or _ _, ?_⟩,
    ⟨_, exec_xor k s, toNat_alu_xor _ _, rfl, zero_alu_xor _ _, ?_⟩⟩
  all_goals exact ⟨State.toNat_advanceTwo_pc _, ⟨rfl, rfl, rfl⟩, fun _ => rfl⟩

/-- Settles O18: the sum with 1 is 0 modulo 16 exactly from 15. -/
theorem incAddsOne : Obligations.IncAddsOne := by
  intro s
  have alu_eq := alu_add_one_eq_ofNat s.acc
  have zero_iff : (s.acc.toNat + 1) % 16 = 0 ↔ s.acc.toNat = 15 := by have := s.acc.isLt; omega
  refine ⟨_, exec_inc s, toNat_alu_add _ 1, congrArg AluResult.carry alu_eq, ?_, State.toNat_advanceOne_pc _,
    ⟨rfl, rfl, rfl⟩, fun _ => rfl⟩
  exact (congrArg AluResult.zero alu_eq).trans (decide_eq_decide.mpr zero_iff)

/-- Settles O19: the difference with 1 is 0 modulo 16 exactly from 1. -/
theorem decSubtractsOne : Obligations.DecSubtractsOne := by
  intro s
  have alu_eq := alu_subtract_one_eq_ofNat s.acc
  have zero_iff : (s.acc.toNat + 15) % 16 = 0 ↔ s.acc.toNat = 1 := by have := s.acc.isLt; omega
  refine ⟨_, exec_dec s, toNat_alu_subtract _ 1, ?_, congrArg AluResult.carry alu_eq, State.toNat_advanceOne_pc _,
    ⟨rfl, rfl, rfl⟩, fun _ => rfl⟩
  exact (congrArg AluResult.zero alu_eq).trans (decide_eq_decide.mpr zero_iff)

/-- Settles O20. -/
theorem cmpWritesOnlyFlags : Obligations.CmpWritesOnlyFlags := by
  intro k s
  exact ⟨_, exec_cmp k s, rfl, zero_alu_subtract _ _, carry_alu_subtract _ _, State.toNat_advanceTwo_pc _,
    ⟨rfl, rfl, rfl⟩, fun _ => rfl⟩

/-- Settles O21. -/
theorem nopOnlyAdvances : Obligations.NopOnlyAdvances := by
  intro s
  exact ⟨_, exec_nop s, s.toNat_advanceOne_pc, rfl, ⟨rfl, rfl⟩, ⟨rfl, rfl, rfl⟩, fun _ => rfl⟩

/-- Settles O23: both jumps are a write to `PC`, by the zero flag. -/
theorem conditionalJumpsTestZero : Obligations.ConditionalJumpsTestZero := by
  intro k s
  refine ⟨⟨_, exec_jz k s, ?_, rfl, s.sameFlags_setPc _, s.sameControl_setPc _, s.sameCells_setPc _⟩,
    ⟨_, exec_jnz k s, ?_, rfl, s.sameFlags_setPc _, s.sameControl_setPc _, s.sameCells_setPc _⟩⟩
  all_goals cases h : s.z <;> simp only [State.setPc_pc, toNat_add_two, reduceCtorEq, if_true, if_false]

/-- Settles O24: in the Halted state a cycle and a run are no-ops. -/
theorem haltSetsHaltedAndKeepsPc : Obligations.HaltSetsHaltedAndKeepsPc := by
  intro s
  exact ⟨_, exec_halt s, rfl, rfl, rfl, rfl, rfl, ⟨rfl, rfl⟩, fun _ => rfl, step_halted rfl, run_halted rfl⟩

/-! ### All instructions at once -/

/-- Settles O25, row by row of the table of R106. -/
theorem pcFollowsThePolicyTable : Obligations.PcFollowsThePolicyTable := by
  intro i s
  cases i with
  | nop | inc | dec => exact ⟨_, rfl, State.toNat_advanceOne_pc _⟩
  | jump k => exact ⟨_, exec_jump k s, rfl⟩
  | jz k => exact ⟨_, exec_jz k s, by rw [State.setPc_pc, apply_ite BitVec.toNat, toNat_add_two, pcAtEnd]⟩
  | jnz k => exact ⟨_, exec_jnz k s, by rw [State.setPc_pc, apply_ite BitVec.toNat, toNat_add_two, pcAtEnd]⟩
  | halt => exact ⟨_, exec_halt s, rfl⟩
  | _ k => exact ⟨_, rfl, State.toNat_advanceTwo_pc _⟩

/-- Settles O26, row by row of the table of R17: an ALU instruction's `Z` is the ALU's zero output. -/
theorem flagsFollowTheTable : Obligations.FlagsFollowTheTable := by
  intro i s
  cases i with
  | jz k => exact ⟨_, exec_jz k s, rfl⟩
  | jnz k => exact ⟨_, exec_jnz k s, rfl⟩
  | nop | load k | store k | jump k | ldi k | halt => exact ⟨_, rfl, rfl⟩
  | _ => exact ⟨_, rfl, Prod.ext (zero_alu_eq_beq _ _ _) rfl⟩

/-- The memory after an instruction: `STORE` alone writes (R40). -/
def State.memAfter (s : State) (i : Instr) : Memory :=
  match storedCell i with
  | some k => s.mem.write k s.acc
  | none => s.mem

theorem State.memAfter_of_storedCell_none {s : State} {i : Instr} (h : storedCell i = none) :
    s.memAfter i = s.mem := by
  rw [memAfter, h]

theorem State.memAfter_of_storedCell_some {s : State} {i : Instr} {k : Nibble} (h : storedCell i = some k) :
    s.memAfter i = s.mem.write k s.acc := by
  rw [memAfter, h]

/-- All that an instruction may change besides `PC` and the flags. -/
structure ExecFrame (i : Instr) (s t : State) : Prop where
  ir : t.ir = s.ir
  cycles : t.cycles = s.cycles
  halted : t.halted = (s.halted || i == .halt)
  acc : writesAcc i = false → t.acc = s.acc
  mem : t.mem = s.memAfter i

theorem exec_frame (i : Instr) (s : State) : ∃ t, exec i s = .next t ∧ ExecFrame i s t := by
  cases i with
  | halt => exact ⟨_, exec_halt s, rfl, rfl, (Bool.or_true _).symm, fun _ => rfl, rfl⟩
  | jz k => exact ⟨_, exec_jz k s, rfl, rfl, (Bool.or_false _).symm, fun _ => rfl, rfl⟩
  | jnz k => exact ⟨_, exec_jnz k s, rfl, rfl, (Bool.or_false _).symm, fun _ => rfl, rfl⟩
  | nop | store k | jump k | cmp k => exact ⟨_, rfl, rfl, rfl, (Bool.or_false _).symm, fun _ => rfl, rfl⟩
  | _ => exact ⟨_, rfl, rfl, rfl, (Bool.or_false _).symm, nofun, rfl⟩

/-- Settles O27: the frame's memory reads as before but at the stored cell. -/
theorem everyInstructionKeepsItsFrame : Obligations.EveryInstructionKeepsItsFrame := by
  intro i s
  obtain ⟨t, ht, frame⟩ := exec_frame i s
  refine ⟨t, ht, frame.ir, frame.cycles, frame.halted, frame.acc, fun h a => ?_, fun k h a ha => ?_⟩
  · have mem_eq := frame.mem.trans (State.memAfter_of_storedCell_none h)
    exact congrArg (Memory.read · a) mem_eq
  · have mem_eq := frame.mem.trans (State.memAfter_of_storedCell_some h)
    exact (congrArg (Memory.read · a) mem_eq).trans (s.mem.read_write_other s.acc ha)

end Sys2Proof.Machine
end

section
/-! One cycle: the instruction it runs, what it leaves, and the spec's own block (42_cpu_cycle.md). -/

namespace Sys2Proof.Machine

/-- Settles O28: the cells at `PC` decode to the instruction, and the state that fetch leaves is `beginCycle`. -/
theorem stepRunsTheInstructionAtPc : Obligations.StepRunsTheInstructionAtPc := by
  intro s i running opcode_eq operand_eq
  have fetch_eq : s.fetchInstr = i := by
    rw [s.fetchInstr_eq, opcode_eq]
    exact decode_opcode i operand_eq
  have begin_eq : s.beginCycle = { s with ir := i.opcode, cycles := s.cycles + 1 } := by
    rw [← opcode_eq]; rfl
  rw [step_running running, fetch_eq, begin_eq]

/-- A Running cycle leaves the frame of its instruction, from the state that fetch leaves. -/
theorem step_running_frame {s : State} (h : s.halted = false) :
    ∃ t, step s = .next t ∧ ExecFrame s.fetchInstr s.beginCycle t := by
  rw [step_running h]
  exact exec_frame s.fetchInstr s.beginCycle

/-- Settles O29. -/
theorem cycleWritesIrAndCounts : Obligations.CycleWritesIrAndCounts := by
  intro s running
  obtain ⟨t, ht, frame⟩ := step_running_frame running
  exact ⟨t, ht, frame.ir, frame.cycles⟩

/-- Settles O30. -/
theorem haltedCycleChangesNothing : Obligations.HaltedCycleChangesNothing := by
  intro s h
  exact ⟨step_halted h, run_halted h⟩

/-- Settles O33: the stored cell is read back by `Memory.read_write`, whichever of a fetch's two cells it is. -/
theorem storeIsSeenByLaterFetches : Obligations.StoreIsSeenByLaterFetches := by
  intro s running opcode_eq
  have fetch_eq : s.fetchInstr = .store (s.memRead (s.pc + 1)) := by
    rw [s.fetchInstr_eq, opcode_eq]; rfl
  have step_eq := step_running running
  rw [fetch_eq, exec_store] at step_eq
  refine ⟨_, step_eq, State.advanceTwo_pc _, fun p => ?_⟩
  rw [State.fetchInstr_eq]
  exact congrArg₂ decode (s.mem.read_write _ _ p) (s.mem.read_write _ _ (p + 1))

/-- Settles O35: a table word has two cells, so that it always decodes, and the next fetch reads both. -/
theorem fetchWordRunsNext : Obligations.FetchWordRunsNext := by
  intro s nbits w
  refine ⟨decode (wordCells nbits w).1 (wordCells nbits w).2, ?_, ?_⟩
  · rw [decodeTableWord, opcodeTellsLength]
  · rw [step_running rfl, State.withFetchWord, State.fetchInstr_placeAtFetch]

/-! ### The block of R108 -/

theorem State.advanceTwo_eq (s : State) : s.advanceTwo = { s with pc := mask (s.pc.toNat + 2) } := by
  rw [mask_toNat_add]
  exact congrArg s.setPc s.advanceTwo_pc

/-- The block's write of `ACC`, `Z` and `C` is the ALU's, where the ALU has the outputs of R94. -/
theorem State.aluToAcc_eq_refAcc {s : State} {op : AluOp} {b : Source} {n : Nat} {carry : Bool}
    (h : alu s.acc (s.sourceValue b) op = .ofNat n carry) : s.aluToAcc op b = s.refAcc n carry := by
  rw [aluToAcc, h]; rfl

/-- The block's write of `LDI`, for each value of `LDI_FLAGS`. -/
theorem State.loadImmediate_eq_refLdi (s : State) (k : Nibble) :
    s.loadImmediate Config.ldiFlags k = { s.refLdi k with pc := mask (s.pc.toNat + 2) } := by
  rw [loadImmediate_eq, mask_toNat_add, refLdi]
  cases Config.ldiFlags with
  | none => rfl
  | zeroOnly => rw [ldiZero, beq_zero_eq_decide]; rfl
  | zeroAndClearCarry => rw [ldiZero, beq_zero_eq_decide]; rfl

/-- An ALU instruction on a cell, as the block writes it. -/
theorem State.aluToAcc_cell_eq_refAcc {s : State} {op : AluOp} {k : Nibble} {n : Nat} {carry : Bool}
    (h : alu s.acc (s.memRead k) op = .ofNat n carry) :
    (s.aluToAcc op (.cell k)).advanceTwo = { s.refAcc n carry with pc := mask (s.pc.toNat + 2) } := by
  rw [aluToAcc_eq_refAcc (b := .cell k) h, advanceTwo_eq]; rfl

/-- Execute is the block's case on the opcode. The block takes the operand cell in format N too, where any `d` may stand
in it. -/
theorem exec_eq_refExecute (s : State) (i : Instr) (d : Nibble) :
    exec i s = .next (refExecute s i.opcode.toNat s.pc.toNat s.acc.toNat
      (s.mem.read (i.operand.getD d)).toNat (i.operand.getD d)) := by
  cases i with
  | nop => rfl
  | load k =>
    change _ = Host.Outcome.next { s with
      acc := mask (s.memRead k).toNat, z := decide ((s.memRead k).toNat = 0), pc := mask (s.pc.toNat + 2) }
    rw [mask_toNat, ← beq_zero_eq_decide, exec_load, State.advanceTwo_eq]; rfl
  | store k =>
    change _ = Host.Outcome.next { s with mem := s.mem.write k (mask s.acc.toNat), pc := mask (s.pc.toNat + 2) }
    rw [mask_toNat, exec_store, State.advanceTwo_eq]; rfl
  | add k => exact congrArg Host.Outcome.next (State.aluToAcc_cell_eq_refAcc (alu_add_eq_ofNat _ _))
  | sub k => exact congrArg Host.Outcome.next (State.aluToAcc_cell_eq_refAcc (alu_subtract_eq_ofNat _ _))
  | and k => exact congrArg Host.Outcome.next (State.aluToAcc_cell_eq_refAcc (alu_and_eq_ofNat _ _))
  | or k => exact congrArg Host.Outcome.next (State.aluToAcc_cell_eq_refAcc (alu_or_eq_ofNat _ _))
  | xor k => exact congrArg Host.Outcome.next (State.aluToAcc_cell_eq_refAcc (alu_xor_eq_ofNat _ _))
  | jump k => rfl
  | jz k =>
    change _ = Host.Outcome.next { s with pc := if s.z then k else mask (s.pc.toNat + 2) }
    rw [exec_jz, mask_toNat_add]; rfl
  | ldi k => exact congrArg Host.Outcome.next (s.loadImmediate_eq_refLdi k)
  | inc => rw [exec_inc, State.aluToAcc_eq_refAcc (alu_add_one_eq_ofNat s.acc)]; rfl
  | dec => rw [exec_dec, State.aluToAcc_eq_refAcc (alu_subtract_one_eq_ofNat s.acc)]; rfl
  | cmp k =>
    have zero_eq : (alu s.acc (s.memRead k) .subtract).zero = decide (s.acc.toNat = (s.memRead k).toNat) := by
      rw [zero_alu_subtract, decide_eq_decide, BitVec.toNat_inj]
    rw [exec_cmp, State.advanceTwo_eq, State.aluFlagsOnly, State.aluFlags, State.sourceValue_cell, zero_eq,
      carry_alu_subtract]
    rfl
  | jnz k =>
    change _ = Host.Outcome.next { s with pc := if s.z then mask (s.pc.toNat + 2) else k }
    rw [exec_jnz, mask_toNat_add]; rfl
  | halt => rfl

/-- Settles O34: fetch hands `exec` the instruction of the two cells the block reads, and `exec_eq_refExecute` is the
rest of the block. -/
theorem stepIsTheSpecsCycleBlock : Obligations.StepIsTheSpecsCycleBlock := by
  intro s
  cases h : s.halted with
  | true => rw [step_halted h, refCycle, h]; rfl
  | false =>
    have operand_eq (o k : Nibble) : (decode o k).operand.getD k = k := by
      rw [operand_decode]; cases needsOperand o <;> rfl
    rw [step_running h, State.fetchInstr, exec_eq_refExecute _ _ (s.memRead s.operandAddress), opcode_decode,
      operand_eq, refCycle, if_neg (Bool.eq_false_iff.mp h)]
    rfl

end Sys2Proof.Machine
end

section
/-! Memory as data, loading, and the Registers block (20_memory.md section 1, 10_state.md section 7). -/

namespace Sys2Proof.Machine

/-! ### Canonical memories -/

/-- A canonical list from `lo` up has no cell below `lo`. -/
theorem Memory.lookup_of_wfFrom {lo a : Nat} {m : Memory} (h : Memory.wfFrom lo m = true) (ha : a < lo) :
    m.lookup a = Memory.unlisted := by
  induction m generalizing lo with
  | nil => rfl
  | cons e m ih =>
    obtain ⟨b, w⟩ := e
    obtain ⟨lo_le, -, -, -, tail_wf⟩ := Memory.wfFrom_cons.mp h
    rw [Memory.lookup, if_neg (by omega), ih tail_wf (by omega)]

/-- An entry of a canonical list is not 0. -/
theorem Memory.lookup_head_ne {lo a : Nat} {w : BitVec 8} {m : Memory}
    (h : Memory.wfFrom lo ((a, w) :: m) = true) : Memory.lookup ((a, w) :: m) a ≠ Memory.unlisted := by
  obtain ⟨-, -, -, w_ne, -⟩ := Memory.wfFrom_cons.mp h
  rwa [Memory.lookup, if_pos rfl]

/-- Of two canonical lists that read alike, the second does not begin above the first: the first's head is a cell that
does not hold 0. -/
theorem Memory.head_le_head {lo lo' a b : Nat} {v w : BitVec 8} {m m' : Memory}
    (h : Memory.wfFrom lo ((a, v) :: m) = true) (h' : Memory.wfFrom lo' ((b, w) :: m') = true)
    (heq : Memory.lookup ((a, v) :: m) a = Memory.lookup ((b, w) :: m') a) : b ≤ a := by
  have from_head : Memory.wfFrom b ((b, w) :: m') = true :=
    Memory.wfFrom_cons.mpr ⟨le_rfl, (Memory.wfFrom_cons.mp h').2⟩
  by_contra hlt
  exact Memory.lookup_head_ne h (heq.trans (Memory.lookup_of_wfFrom from_head (by omega)))

/-- A program byte is known by its low half (R6). -/
theorem byte_eq_of_setWidth_eq {v w : BitVec 8} (hv : v.toNat < 16) (hw : w.toNat < 16)
    (h : v.setWidth 4 = w.setWidth 4) : v = w := by
  have toNat_eq := congrArg BitVec.toNat h
  rw [BitVec.toNat_setWidth, BitVec.toNat_setWidth, Nat.mod_eq_of_lt hv, Nat.mod_eq_of_lt hw] at toNat_eq
  exact BitVec.eq_of_toNat_eq toNat_eq

theorem Memory.eq_of_lookup_eq {lo : Nat} {m m' : Memory} (h : Memory.wfFrom lo m = true)
    (h' : Memory.wfFrom lo m' = true) (heq : ∀ x < 16, m.lookup x = m'.lookup x) : m = m' := by
  induction m generalizing lo m' with
  | nil =>
    cases m' with
    | nil => rfl
    | cons e' m' =>
      obtain ⟨b, w⟩ := e'
      obtain ⟨-, b_lt, -⟩ := Memory.wfFrom_cons.mp h'
      exact absurd (heq b b_lt).symm (Memory.lookup_head_ne h')
  | cons e m ih =>
    obtain ⟨a, v⟩ := e
    obtain ⟨-, a_lt, v_lt, -, m_wf⟩ := Memory.wfFrom_cons.mp h
    cases m' with
    | nil => exact absurd (heq a a_lt) (Memory.lookup_head_ne h)
    | cons e' m' =>
      obtain ⟨b, w⟩ := e'
      obtain ⟨-, b_lt, w_lt, -, m'_wf⟩ := Memory.wfFrom_cons.mp h'
      obtain rfl : a = b :=
        le_antisymm (Memory.head_le_head h' h (heq b b_lt).symm) (Memory.head_le_head h h' (heq a a_lt))
      have low_eq : v.setWidth 4 = w.setWidth 4 := by simpa [Memory.lookup] using heq a a_lt
      have tails_eq : ∀ x < 16, Memory.lookup m x = Memory.lookup m' x := by
        intro x hx
        by_cases hxa : x ≤ a
        · rw [Memory.lookup_of_wfFrom m_wf (by omega), Memory.lookup_of_wfFrom m'_wf (by omega)]
        · simpa [Memory.lookup, show a ≠ x by omega] using heq x hx
      rw [byte_eq_of_setWidth_eq v_lt w_lt low_eq, ih m_wf m'_wf tails_eq]

/-- Settles O7: an address below 16 is a Nibble's. -/
theorem equalContentsAreEqualMemories : Obligations.EqualContentsAreEqualMemories := by
  intro m m' h h' heq
  refine Memory.eq_of_lookup_eq h h' fun x hx => ?_
  have read_eq : m.lookup (mask x).toNat = m'.lookup (mask x).toNat := heq (mask x)
  rwa [toNat_mask, Nat.mod_eq_of_lt hx] at read_eq

/-! ### Loading a program -/

/-- Storing at consecutive addresses that do not wrap: each element is read back, and the cells outside are kept. -/
theorem Memory.read_storeFrom (m : Memory) {i : Nat} {bytes : List Nat} (h : i + bytes.length ≤ 16) (a : Nibble) :
    (m.storeFrom i bytes).read a =
      if i ≤ a.toNat ∧ a.toNat < i + bytes.length then mask (bytes.getD (a.toNat - i) 0) else m.read a := by
  induction bytes generalizing m i with
  | nil => rw [if_neg (by simp)]; rfl
  | cons b bytes ih =>
    rw [List.length_cons] at h ⊢
    have first_iff : a = mask i ↔ a.toNat = i := by
      rw [← BitVec.toNat_inj, toNat_mask, Nat.mod_eq_of_lt (by omega)]
    rw [Memory.storeFrom, ih _ (by omega), Memory.writeWide, Memory.read_write]
    rcases Nat.lt_trichotomy a.toNat i with hlt | heq | hgt
    · rw [if_neg (by omega), if_neg (first_iff.not.mpr hlt.ne), if_neg (by omega)]
    · rw [if_neg (by omega), if_pos (first_iff.mpr heq), if_pos (by omega), heq, Nat.sub_self, List.getD_cons_zero]
    · have index_eq : a.toNat - i = (a.toNat - (i + 1)) + 1 := by omega
      rw [index_eq, List.getD_cons_succ, if_neg (first_iff.not.mpr hgt.ne')]
      exact if_congr (by omega) rfl rfl

/-- R34: the cells of the program, and what was there beyond it. -/
theorem Memory.read_loadProgram (m : Memory) (bytes : List Nat) (a : Nibble) :
    (m.loadProgram bytes).read a =
      if a.toNat < bytes.length then mask (bytes.getD a.toNat 0) else m.read a := by
  have a_lt : a.toNat < 16 := a.isLt
  have fits : 0 + (bytes.take 16).length ≤ 16 := by rw [List.length_take]; omega
  have bound_iff : (0 ≤ a.toNat ∧ a.toNat < 0 + (bytes.take 16).length) ↔ a.toNat < bytes.length := by
    rw [List.length_take]; omega
  rw [Memory.loadProgram, Memory.read_storeFrom m fits, Nat.sub_zero, List.getD_eq_getElem?_getD,
    List.getElem?_take_of_lt a_lt, ← List.getD_eq_getElem?_getD]
  exact if_congr bound_iff rfl rfl

/-- Settles O8. -/
theorem loadProgramCopiesUpToSixteen : Obligations.LoadProgramCopiesUpToSixteen := by
  intro s bytes
  exact ⟨s.loadProgram bytes, rfl, s.mem.read_loadProgram bytes, s.loadProgram_acc bytes, s.loadProgram_pc bytes,
    ⟨s.loadProgram_z bytes, s.loadProgram_c bytes⟩,
    ⟨s.loadProgram_ir bytes, s.loadProgram_halted bytes, s.loadProgram_cycles bytes⟩⟩

/-! ### Reset and the Registers block -/

/-- Settles O9: reset is the constructed state. -/
theorem resetRestoresEveryComponent : Obligations.ResetRestoresEveryComponent := by
  intro s
  exact ⟨State.reset, congrArg Host.Outcome.next s.resetAll_eq, rfl, rfl, rfl, rfl, rfl, rfl, rfl, rfl,
    Memory.read_clear⟩

theorem State.readReg_writeReg (s : State) (r q : Reg) (v : Nat) :
    (s.writeReg r v).readReg q = if q = r then mask v else s.readReg q := by
  cases r <;> cases q <;> rfl

theorem State.readReg_writeReg_same (s : State) (r : Reg) (v : Nat) : (s.writeReg r v).readReg r = mask v := by
  rw [readReg_writeReg, if_pos rfl]

theorem State.onlyRegChanges_writeReg (s : State) (r : Reg) (v : Nat) : OnlyRegChanges r s (s.writeReg r v) := by
  refine ⟨fun q hq => by rw [readReg_writeReg, if_neg hq], ?_⟩
  cases r <;> exact ⟨⟨rfl, rfl⟩, fun _ => rfl, rfl, rfl⟩

theorem State.readFlag_writeFlag (s : State) (f g : FlagReg) (v : Bool) :
    (s.writeFlag f v).readFlag g = if g = f then v else s.readFlag g := by
  cases f <;> cases g <;> rfl

theorem State.readFlag_writeFlag_same (s : State) (f : FlagReg) (v : Bool) : (s.writeFlag f v).readFlag f = v := by
  rw [readFlag_writeFlag, if_pos rfl]

theorem State.onlyFlagChanges_writeFlag (s : State) (f : FlagReg) (v : Bool) :
    OnlyFlagChanges f s (s.writeFlag f v) := by
  refine ⟨fun g hg => by rw [readFlag_writeFlag, if_neg hg], ?_⟩
  cases f
  all_goals exact ⟨fun q => by cases q <;> rfl, fun _ => rfl, rfl, rfl⟩

/-- Settles O10: every operation of the Registers block is one `writeReg` or `writeFlag`. -/
theorem registerOperationsWrap : Obligations.RegisterOperationsWrap := by
  intro s r f v b
  refine ⟨⟨s.readReg_writeReg_same r v, s.onlyRegChanges_writeReg r v⟩, ⟨?_, s.onlyRegChanges_writeReg r _⟩,
    ⟨?_, s.onlyRegChanges_writeReg r _⟩, ⟨s.readReg_writeReg_same r 0, s.onlyRegChanges_writeReg r 0⟩,
    ⟨s.readFlag_writeFlag_same f b, s.onlyFlagChanges_writeFlag f b⟩,
    ⟨s.readFlag_writeFlag_same f false, s.onlyFlagChanges_writeFlag f false⟩, rfl, rfl,
    ⟨_, exec_inc s, rfl, rfl, rfl⟩, ⟨_, exec_dec s, rfl, rfl, rfl⟩⟩
  · rw [State.incReg, State.readReg_writeReg_same, toNat_mask]
  · rw [State.decReg, State.readReg_writeReg_same, toNat_mask]

end Sys2Proof.Machine
end

section
/-! The invariant of every reachable state, the budget of a run, and what no run depends on (10_state.md,
42_cpu_cycle.md section 6). -/

namespace Sys2Proof.Machine

/-! ### The invariant -/

theorem State.wf_memAfter {s : State} (i : Instr) (h : s.mem.wf = true) : (s.memAfter i).wf = true := by
  cases hk : storedCell i with
  | none => rwa [memAfter_of_storedCell_none hk]
  | some k => rw [memAfter_of_storedCell_some hk]; exact Memory.wf_write k s.acc h

/-- `HALT` is fetched from an opcode cell `0xF` only (R52). -/
theorem State.memRead_pc_of_fetchInstr_halt {s : State} (h : s.fetchInstr = .halt) : s.memRead s.pc = 0xF#4 := by
  have opcode_eq := congrArg Instr.opcode h
  rwa [fetchInstr, opcode_decode] at opcode_eq

/-- Settles O36: only `STORE` writes memory, in canonical form, and a cycle that halts has fetched `0xF` into `IR`. -/
theorem stepKeepsInvariant : Obligations.StepKeepsInvariant := by
  intro s t hinv hstep
  cases h : s.halted with
  | true =>
    obtain rfl : s = t := Host.Outcome.next.inj ((step_halted h).symm.trans hstep)
    exact hinv
  | false =>
    obtain ⟨u, hu, frame⟩ := step_running_frame h
    obtain rfl : u = t := Host.Outcome.next.inj (hu.symm.trans hstep)
    refine ⟨?_, fun halted => ?_⟩
    · rw [frame.mem]
      exact State.wf_memAfter _ hinv.1
    · rw [frame.halted, State.beginCycle_halted, h, Bool.false_or, beq_iff_eq] at halted
      exact frame.ir.trans (State.memRead_pc_of_fetchInstr_halt halted)

/-- What every step keeps, every run keeps. -/
theorem run_keeps {P : State → Prop} (hstep : ∀ s t, P s → step s = .next t → P t) {n : Nat} {s t : State}
    (hs : P s) (hrun : run n s = .next t) : P t := by
  induction n generalizing s with
  | zero =>
    obtain rfl : s = t := Host.Outcome.next.inj hrun
    exact hs
  | succ n ih =>
    cases h : s.halted with
    | true =>
      obtain rfl : s = t := Host.Outcome.next.inj ((run_halted h (n + 1)).symm.trans hrun)
      exact hs
    | false =>
      obtain ⟨u, hu⟩ := step_completes s
      rw [run_succ h hu] at hrun
      exact ih (hstep s u hs hu) hrun

/-- Settles O37. -/
theorem resetHasInvariant : Obligations.ResetHasInvariant :=
  ⟨State.wf_reset_mem, nofun⟩

/-- Every operation of the host keeps the invariant: a load or a write touches memory only, and keeps its form. -/
theorem perform_keeps_inv (op : Transaction) {s t : State} (hinv : s.Inv) (h : perform op s = .next t) : t.Inv := by
  cases op with
  | reset =>
    obtain rfl : s.resetAll = t := Host.Outcome.next.inj h
    exact s.resetAll_eq ▸ resetHasInvariant
  | loadProgram bytes =>
    obtain rfl : s.loadProgram bytes = t := Host.Outcome.next.inj h
    exact ⟨Memory.wf_loadProgram bytes hinv.1, hinv.2⟩
  | cycle => exact stepKeepsInvariant s t hinv h
  | run n => exact run_keeps stepKeepsInvariant hinv h
  | write addr value =>
    obtain rfl : s.hostWrite addr value = t := Host.Outcome.next.inj h
    exact ⟨Memory.wf_writeWide addr value hinv.1, hinv.2⟩

/-- Settles O38, by induction on how the state was reached. -/
theorem everyReachableStateHasInvariant : Obligations.EveryReachableStateHasInvariant := by
  intro s h
  induction h with
  | construct => exact resetHasInvariant
  | perform op _ hop ih => exact perform_keeps_inv op ih hop

/-! ### The budget -/

/-- Settles O39, by induction on the budget: a Running cycle counts one. -/
theorem runStaysWithinItsBudget : Obligations.RunStaysWithinItsBudget := by
  intro n s
  induction n generalizing s with
  | zero => exact ⟨s, rfl, le_rfl, le_rfl, .inr rfl⟩
  | succ n ih =>
    cases h : s.halted with
    | true => exact ⟨s, run_halted h (n + 1), le_rfl, Nat.le_add_right _ _, .inl h⟩
    | false =>
      obtain ⟨u, hu, -, cycles_eq⟩ := cycleWritesIrAndCounts s h
      obtain ⟨t, ht, le_t, t_le, ended⟩ := ih u
      exact ⟨t, (run_succ h hu n).trans ht, by omega, by omega, ended.imp_right (by omega)⟩

/-- Settles O40, by induction on the first budget; a run that has halted spends nothing of the second. -/
theorem runsCompose : Obligations.RunsCompose := by
  intro m n s t hrun
  induction m generalizing s with
  | zero =>
    obtain rfl : s = t := Host.Outcome.next.inj hrun
    rw [Nat.zero_add]
  | succ m ih =>
    cases h : s.halted with
    | true =>
      obtain rfl : s = t := Host.Outcome.next.inj ((run_halted h (m + 1)).symm.trans hrun)
      rw [run_halted h, run_halted h]
    | false =>
      obtain ⟨u, hu⟩ := step_completes s
      rw [run_succ h hu] at hrun
      rw [Nat.succ_add, run_succ h hu, ih u hrun]

/-! ### What no run depends on -/

/-- No instruction reads `C`, `IR` or `CYCLES` (R15, R18, R20). -/
theorem exec_agrees (i : Instr) {s s' : State} (h : AgreeForPrograms s s') :
    ∃ t t', exec i s = .next t ∧ exec i s' = .next t' ∧ AgreeForPrograms t t' := by
  obtain ⟨acc, pc, ir, z, c, halted, cycles, mem⟩ := s
  obtain ⟨acc', pc', ir', z', c', halted', cycles', mem'⟩ := s'
  obtain ⟨rfl, rfl, rfl, rfl, rfl⟩ : acc = acc' ∧ pc = pc' ∧ z = z' ∧ halted = halted' ∧ mem = mem' := h
  cases i with
  | jz k => exact ⟨_, _, exec_jz k _, exec_jz k _, rfl, rfl, rfl, rfl, rfl⟩
  | jnz k => exact ⟨_, _, exec_jnz k _, exec_jnz k _, rfl, rfl, rfl, rfl, rfl⟩
  | _ => exact ⟨_, _, rfl, rfl, rfl, rfl, rfl, rfl, rfl⟩

theorem AgreeForPrograms.halted_eq {s s' : State} (h : AgreeForPrograms s s') : s.halted = s'.halted := by
  obtain ⟨-, -, -, halted_eq, -⟩ := h
  exact halted_eq

theorem AgreeForPrograms.fetchInstr_eq {s s' : State} (h : AgreeForPrograms s s') : s.fetchInstr = s'.fetchInstr := by
  obtain ⟨-, hpc, -, -, hmem⟩ := h
  rw [State.fetchInstr_eq, State.fetchInstr_eq, State.memRead, State.memRead, State.memRead, State.memRead, hpc, hmem]

theorem step_agrees {s s' : State} (h : AgreeForPrograms s s') :
    ∃ t t', step s = .next t ∧ step s' = .next t' ∧ AgreeForPrograms t t' := by
  cases hs : s.halted with
  | true => exact ⟨s, s', step_halted hs, step_halted (h.halted_eq ▸ hs), h⟩
  | false =>
    rw [step_running hs, step_running (h.halted_eq ▸ hs), h.fetchInstr_eq]
    exact exec_agrees s'.fetchInstr h

/-- Settles O41, by induction on the budget: the two runs halt at once, or take a cycle each and still agree. -/
theorem hostOnlyStateNeverAffectsARun : Obligations.HostOnlyStateNeverAffectsARun := by
  intro n s s' h
  induction n generalizing s s' with
  | zero => exact ⟨s, s', rfl, rfl, h⟩
  | succ n ih =>
    cases hs : s.halted with
    | true => exact ⟨s, s', run_halted hs _, run_halted (h.halted_eq ▸ hs) _, h⟩
    | false =>
      obtain ⟨u, u', hu, hu', agree⟩ := step_agrees h
      rw [run_succ hs hu, run_succ (h.halted_eq ▸ hs) hu']
      exact ih u u' agree

end Sys2Proof.Machine
end

section
/-! The literals of an operand token (46_assembler.md, R163 and R164). -/

namespace Sys2Proof.Machine

/-! ### Digits -/

/-- A list of `n` consecutive ASCII characters from `lo` up, as a range of codes. -/
theorem mem_asciiRange_iff {lo n : Nat} (h : lo + n ≤ 128) (c : Char) :
    c ∈ (List.range n).map (fun i => Char.ofNat (lo + i)) ↔ lo ≤ c.toNat ∧ c.toNat < lo + n := by
  have toNat_eq (i : Nat) (hi : i < n) : (Char.ofNat (lo + i)).toNat = lo + i := by
    rw [Char.toNat_ofNat, if_pos (Or.inl (by omega))]
  constructor
  · intro hc
    obtain ⟨i, hi, rfl⟩ := List.mem_map.mp hc
    rw [toNat_eq i (List.mem_range.mp hi)]
    exact ⟨Nat.le_add_right lo i, Nat.add_lt_add_left (List.mem_range.mp hi) lo⟩
  · intro ⟨hlo, hhi⟩
    exact List.mem_map.mpr ⟨c.toNat - lo, List.mem_range.mpr (by omega),
      by rw [Nat.add_sub_cancel' hlo, Char.ofNat_toNat]⟩

theorem mem_decimalDigits_iff (c : Char) : c ∈ decimalDigits ↔ 48 ≤ c.toNat ∧ c.toNat < 58 :=
  mem_asciiRange_iff (lo := 48) (n := 10) (by decide) c

theorem mem_hexDigits_iff (c : Char) :
    c ∈ hexDigits ↔
      ((48 ≤ c.toNat ∧ c.toNat < 58) ∨ (65 ≤ c.toNat ∧ c.toNat < 71)) ∨ (97 ≤ c.toNat ∧ c.toNat < 103) := by
  have capitals := mem_asciiRange_iff (lo := 65) (n := 6) (by decide) c
  have smalls := mem_asciiRange_iff (lo := 97) (n := 6) (by decide) c
  rw [hexDigits, List.mem_append, List.mem_append, mem_decimalDigits_iff]
  exact or_congr (or_congr_right capitals) smalls

theorem decimalDigit_eq_none_iff (c : Char) : decimalDigit c = none ↔ c ∉ decimalDigits := by
  have range_eq : decimalDigit c = if 48 ≤ c.toNat && c.toNat ≤ 57 then some (c.toNat - 48) else none := rfl
  rw [mem_decimalDigits_iff, range_eq]
  simp only [Bool.and_eq_true, decide_eq_true_eq]
  split_ifs
  · exact iff_of_false nofun (by omega)
  · exact iff_of_true rfl (by omega)

theorem hexDigit_eq_none_iff (c : Char) : hexDigit c = none ↔ c ∉ hexDigits := by
  have range_eq : hexDigit c =
      if 48 ≤ c.toNat && c.toNat ≤ 57 then some (c.toNat - 48)
      else if 65 ≤ c.toNat && c.toNat ≤ 70 then some (c.toNat - 65 + 10)
      else if 97 ≤ c.toNat && c.toNat ≤ 102 then some (c.toNat - 97 + 10)
      else none := rfl
  rw [mem_hexDigits_iff, range_eq]
  simp only [Bool.and_eq_true, decide_eq_true_eq]
  split_ifs
  iterate 3 exact iff_of_false nofun (by omega)
  exact iff_of_true rfl (by omega)

theorem decimalDigit_digitChar (d : Fin 10) : decimalDigit (Nat.digitChar d.val) = some d.val := by
  revert d; decide

theorem hexDigit_hexDigitChar (capital : Bool) (d : Fin 16) : hexDigit (hexDigitChar capital d) = some d.val := by
  revert capital d; decide

/-- Digits are read most significant first, each with its own value. -/
theorem digitsFrom_map {α : Type} {digit : Char → Option Nat} {char : α → Char} {val : α → Nat}
    (h : ∀ d, digit (char d) = some (val d)) (base value : Nat) (ds : List α) :
    digitsFrom base digit value (ds.map char) = some (ds.foldl (fun v d => v * base + val d) value) := by
  induction ds generalizing value with
  | nil => rfl
  | cons d ds ih => simp only [List.map_cons, digitsFrom, h, ih, List.foldl_cons]

theorem digits_map {α : Type} {digit : Char → Option Nat} {char : α → Char} {val : α → Nat}
    (h : ∀ d, digit (char d) = some (val d)) (base : Nat) {ds : List α} (hne : ds ≠ []) :
    digits base digit (ds.map char) = some (ds.foldl (fun v d => v * base + val d) 0) := by
  rw [digits, if_neg (by simpa using hne), digitsFrom_map h]

/-- A text is no number exactly when it is empty or one of its characters is no digit. -/
theorem digits_eq_none_iff {digit : Char → Option Nat} {alphabet : List Char}
    (h : ∀ c, digit c = none ↔ c ∉ alphabet) (base : Nat) (t : Text) :
    digits base digit t = none ↔ ¬ (t ≠ [] ∧ ∀ c ∈ t, c ∈ alphabet) := by
  cases t with
  | nil => simp [digits]
  | cons c cs =>
    rw [digits, List.isEmpty_cons, if_neg Bool.false_ne_true, digitsFrom_eq_none]
    simp only [h]
    simp [imp_iff_not_or]

/-! ### Tokens -/

theorem literalValue_hex (ds : Text) : literalValue ('0' :: 'x' :: ds) = digits 16 hexDigit ds := rfl

theorem literalValue_decimal {t : Text} (h : ∀ ds, t ≠ '0' :: 'x' :: ds) :
    literalValue t = digits 10 decimalDigit t := by
  unfold literalValue
  split
  · exact absurd rfl (h _)
  · rfl

/-- The grammar of R163 and the reading of a token agree on which tokens are literals. -/
theorem literalValue_eq_none_iff (t : Text) : literalValue t = none ↔ ¬ IsLiteral t := by
  by_cases hx : ∃ ds, t = '0' :: 'x' :: ds
  · obtain ⟨ds, rfl⟩ := hx
    have x_not_digit : 'x' ∉ decimalDigits := by decide
    have literal_iff : IsLiteral ('0' :: 'x' :: ds) ↔ ds ≠ [] ∧ ∀ c ∈ ds, c ∈ hexDigits := by
      constructor
      · rintro (⟨ds', h, literal⟩ | ⟨-, h⟩)
        · simp only [List.cons.injEq, true_and] at h
          exact h ▸ literal
        · exact absurd (h 'x' (by simp)) x_not_digit
      · exact fun literal => .inl ⟨ds, rfl, literal⟩
    rw [literalValue_hex, literal_iff, digits_eq_none_iff hexDigit_eq_none_iff]
  · push Not at hx
    have literal_iff : IsLiteral t ↔ t ≠ [] ∧ ∀ c ∈ t, c ∈ decimalDigits :=
      or_iff_right fun ⟨ds, h, _⟩ => hx ds h
    rw [literalValue_decimal hx, literal_iff, digits_eq_none_iff decimalDigit_eq_none_iff]

theorem parseOperand_of_literalValue {t : Text} {v : Nat} (h : literalValue t = some v) :
    parseOperand t = if v ≤ 15 then .ok (mask v) else .error .operandOutOfRange := by
  rw [parseOperand, h]

theorem parseOperand_eq_invalidLiteral_iff (t : Text) :
    parseOperand t = .error .invalidLiteral ↔ ¬ IsLiteral t := by
  rw [← literalValue_eq_none_iff]
  cases h : literalValue t with
  | none => rw [parseOperand, h]; exact iff_of_true rfl rfl
  | some v => rw [parseOperand_of_literalValue h]; split_ifs <;> simp

/-- Settles O51: decimal digits never begin with `0x`, and `digits_map` reads both bases. -/
theorem literalsAreReadAsNumbers : Obligations.LiteralsAreReadAsNumbers := by
  refine ⟨fun ds hne => parseOperand_of_literalValue ?_, fun ds hne => parseOperand_of_literalValue ?_,
    parseOperand_eq_invalidLiteral_iff⟩
  · have no_x : ∀ d : Fin 10, Nat.digitChar d.val ≠ 'x' := by decide
    have not_hex : ∀ tail, ds.map (fun d => Nat.digitChar d.val) ≠ '0' :: 'x' :: tail := by
      intro tail h
      have x_mem : 'x' ∈ ds.map fun d => Nat.digitChar d.val := by rw [h]; simp
      obtain ⟨d, -, hd⟩ := List.mem_map.mp x_mem
      exact no_x d hd
    rw [literalValue_decimal not_hex, digits_map decimalDigit_digitChar 10 hne]
  · rw [literalValue_hex, digits_map (val := fun d => d.2.val) (fun d => hexDigit_hexDigitChar d.1 d.2) 16 hne]

end Sys2Proof.Machine
end

section
/-! Lines of a source: what a line is classified as, the bytes it emits, and how the lines decide the outcome
(46_assembler.md, sections 2 to 4). -/

namespace Sys2Proof.Machine

/-! ### Instruction lines -/

theorem wellFormed_iff (i : AsmInstruction) :
    i.wellFormed = true ↔ ∃ o, opcodeOfMnemonic i.opcode = some o ∧ i.operand.isSome = needsOperand o := by
  cases h : opcodeOfMnemonic i.opcode <;> simp [AsmInstruction.wellFormed, h]

/-- The two ways a line is an instruction (R160, R164). -/
theorem wellFormed_of_parseTokens {ts : List Text} {i : AsmInstruction} (h : parseTokens ts = .instr i) :
    i.wellFormed = true := by
  rw [wellFormed_iff]
  match ts with
  | [] => simp [parseTokens] at h
  | [m] =>
    cases ho : opcodeOfMnemonic m with
    | none => rw [parseTokens, ho] at h; split_ifs at h
    | some o =>
      simp only [parseTokens, ho] at h
      split_ifs at h with hneeds
      obtain rfl : ⟨m, none⟩ = i := Line.instr.inj h
      exact ⟨o, ho, (Bool.eq_false_iff.mpr hneeds).symm⟩
  | [m, t] =>
    cases ho : opcodeOfMnemonic m with
    | none => simp only [parseTokens, ho] at h; split_ifs at h
    | some o =>
      simp only [parseTokens, ho] at h
      split_ifs at h with hneeds
      cases hk : parseOperand t with
      | error e => simp [parseOperandLine, hk] at h
      | ok k =>
        rw [parseOperandLine, hk] at h
        obtain rfl : ⟨m, some k⟩ = i := Line.instr.inj h
        exact ⟨o, ho, hneeds.symm⟩
  | _ :: _ :: _ :: _ => simp [parseTokens] at h

theorem parseLabel_ne_instr (t : Text) (i : AsmInstruction) : parseLabel t ≠ .instr i := by
  simp only [parseLabel]
  split_ifs <;> exact nofun

/-- Settles O49: only the token branch of `classifyLine` gives an instruction. -/
theorem acceptedLinesAreWellFormed : Obligations.AcceptedLinesAreWellFormed := by
  intro line i h
  simp only [classifyLine] at h
  split_ifs at h
  · exact absurd h (parseLabel_ne_instr _ i)
  · exact wellFormed_of_parseTokens h

/-! ### The bytes of a line -/

/-- What a line emits (R165). -/
def Line.bytes : Line → List Nibble
  | .instr i => emitInstruction i
  | _ => []

/-- Phase 2 is the lines' own bytes, one line after another; the offsets play no part in it. -/
theorem secondPass_firstPass (ls : List Line) (n : Nat) :
    secondPass ((firstPass n ls).instructions.map Prod.snd) = ls.flatMap Line.bytes := by
  induction ls generalizing n with
  | nil => rfl
  | cons l ls ih =>
    cases l with
    | instr i => exact congrArg (emitInstruction i ++ ·) (ih (n + asmSize i))
    | _ => exact ih n

/-- A well-formed line emits its opcode byte and, if it has one, its operand. -/
theorem emitInstruction_of_opcode {i : AsmInstruction} {o : Nibble} (hopcode : opcodeOfMnemonic i.opcode = some o)
    (hoperand : i.operand.isSome = needsOperand o) : emitInstruction i = o :: i.operand.toList := by
  rw [emitInstruction, hopcode]
  cases hk : i.operand <;> simp [← hoperand, hk]

/-- The accounting of R162 agrees with the bytes emitted. -/
theorem length_emitInstruction {i : AsmInstruction} (h : i.wellFormed = true) :
    (emitInstruction i).length = asmSize i := by
  obtain ⟨o, hopcode, hoperand⟩ := (wellFormed_iff i).mp h
  rw [emitInstruction_of_opcode hopcode hoperand, asmSize, hopcode]
  cases hk : i.operand <;> simp [← hoperand, hk]

/-- Every instruction line is well formed: the lines of a source are so, by `acceptedLinesAreWellFormed`. -/
def LinesWellFormed (ls : List Line) : Prop := ∀ i, Line.instr i ∈ ls → i.wellFormed = true

theorem linesWellFormed_map_classifyLine (texts : List Text) : LinesWellFormed (texts.map classifyLine) := by
  intro i hi
  obtain ⟨text, -, h⟩ := List.mem_map.mp hi
  exact acceptedLinesAreWellFormed text i h

theorem firstPass_endOffset {ls : List Line} (h : LinesWellFormed ls) (n : Nat) :
    (firstPass n ls).endOffset = n + (ls.flatMap Line.bytes).length := by
  induction ls generalizing n with
  | nil => rfl
  | cons l ls ih =>
    have tail_wf : LinesWellFormed ls := fun i hi => h i (List.mem_cons_of_mem l hi)
    rw [List.flatMap_cons, List.length_append]
    cases l with
    | instr i =>
      rw [Line.bytes, length_emitInstruction (h i List.mem_cons_self), ← Nat.add_assoc]
      exact ih tail_wf (n + asmSize i)
    | _ => exact (ih tail_wf n).trans (by simp [Line.bytes])

/-! ### The outcome -/

/-- The lines of a source that assembles (R158, R164, R165). -/
structure Accepted (ls : List Line) : Prop where
  no_refused : ∀ r, Line.refused r ∉ ls
  labels_nodup : (labelNames ls).Nodup
  no_error : ∀ e, Line.error e ∉ ls

theorem assembleLines_of_refusal {ls : List Line} {r : AsmRefusal} (h : sourceRefusal ls = some r) :
    assembleLines ls = .refused r := by
  rw [assembleLines, h]

theorem assembleLines_of_error {ls : List Line} {n : Nat} {e : AsmErrorKind} (h : sourceRefusal ls = none)
    (he : firstError 1 ls = some (n, e)) : assembleLines ls = .error n e := by
  rw [assembleLines, h, he]

theorem assembleLines_of_accepted {ls : List Line} (h : Accepted ls) :
    assembleLines ls = .ok (ls.flatMap Line.bytes) (firstPass 0 ls).labels := by
  have refusal_eq : sourceRefusal ls = none := (sourceRefusal_eq_none ls).mpr ⟨h.no_refused, h.labels_nodup⟩
  have error_eq : firstError 1 ls = none := (firstError_eq_none 1 ls).mpr h.no_error
  rw [assembleLines, refusal_eq, error_eq, ← secondPass_firstPass ls 0]

/-- The three outcomes, with what decides each. -/
theorem assembleLines_cases (ls : List Line) :
    (∃ r, assembleLines ls = .refused r ∧ ¬ ((∀ r, Line.refused r ∉ ls) ∧ (labelNames ls).Nodup)) ∨
    (∃ n e, assembleLines ls = .error n e ∧ firstError 1 ls = some (n, e) ∧
      (∀ r, Line.refused r ∉ ls) ∧ (labelNames ls).Nodup) ∨
    (assembleLines ls = .ok (ls.flatMap Line.bytes) (firstPass 0 ls).labels ∧ Accepted ls) := by
  cases hr : sourceRefusal ls with
  | some r =>
    refine .inl ⟨r, assembleLines_of_refusal hr, ?_⟩
    rw [← sourceRefusal_eq_none, hr]
    nofun
  | none =>
    obtain ⟨no_refused, labels_nodup⟩ := (sourceRefusal_eq_none ls).mp hr
    cases he : firstError 1 ls with
    | some err => exact .inr (.inl ⟨err.1, err.2, assembleLines_of_error hr he, rfl, no_refused, labels_nodup⟩)
    | none =>
      have accepted : Accepted ls := ⟨no_refused, labels_nodup, (firstError_eq_none 1 ls).mp he⟩
      exact .inr (.inr ⟨assembleLines_of_accepted accepted, accepted⟩)

theorem assembleLines_eq_ok {ls : List Line} {bytes : List Nibble} {labels : List (Text × Nat)}
    (h : assembleLines ls = .ok bytes labels) :
    Accepted ls ∧ bytes = ls.flatMap Line.bytes ∧ labels = (firstPass 0 ls).labels := by
  obtain ⟨r, hr, -⟩ | ⟨n, e, he, -⟩ | ⟨hok, accepted⟩ := assembleLines_cases ls
  · cases hr.symm.trans h
  · cases he.symm.trans h
  · obtain ⟨rfl, rfl⟩ := AsmOutcome.ok.inj (hok.symm.trans h)
    exact ⟨accepted, rfl, rfl⟩

/-- The first error is at the lowest-numbered bad line (R165). -/
theorem firstError_eq_some {n m : Nat} {ls : List Line} {e : AsmErrorKind} (h : firstError n ls = some (m, e)) :
    n ≤ m ∧ ls[m - n]? = some (.error e) ∧ ∀ j e', j < m - n → ls[j]? ≠ some (.error e') := by
  induction ls generalizing n with
  | nil => cases h
  | cons l ls ih =>
    by_cases hl : ∃ kind, l = .error kind
    · obtain ⟨kind, rfl⟩ := hl
      obtain ⟨rfl, rfl⟩ : n = m ∧ kind = e := by simpa [firstError] using h
      simp
    · push Not at hl
      have tail_error : firstError (n + 1) ls = some (m, e) := by
        cases l with
        | error kind => exact absurd rfl (hl kind)
        | _ => exact h
      obtain ⟨lt, at_index, before⟩ := ih tail_error
      have index_eq : m - n = (m - (n + 1)) + 1 := by omega
      rw [index_eq, List.getElem?_cons_succ]
      refine ⟨by omega, at_index, fun j e' hj => ?_⟩
      cases j with
      | zero => simpa using hl e'
      | succ j => rw [List.getElem?_cons_succ]; exact before j e' (by omega)

/-- Settles O47: `assembleLines_cases` gives each outcome with what decides it. -/
theorem assemblyOutcomeFollowsTheLines : Obligations.AssemblyOutcomeFollowsTheLines := by
  intro ls
  have not_refused_iff : ((∃ r, Line.refused r ∈ ls) ∨ ¬ (labelNames ls).Nodup) ↔
      ¬ ((∀ r, Line.refused r ∉ ls) ∧ (labelNames ls).Nodup) := by
    rw [not_and_or, not_forall_not]
  rw [not_refused_iff]
  obtain ⟨r, hr, refused⟩ | ⟨n, e, he, first, no_refused, labels_nodup⟩ | ⟨hok, accepted⟩ := assembleLines_cases ls
  · refine ⟨iff_of_true ⟨r, hr⟩ refused, fun n e h => ?_, iff_of_false ?_ ?_⟩
    · cases hr.symm.trans h
    · rintro ⟨b, l, h⟩; cases hr.symm.trans h
    · exact fun ⟨no_refused, labels_nodup, _⟩ => refused ⟨no_refused, labels_nodup⟩
  · obtain ⟨one_le, at_index, before⟩ := firstError_eq_some first
    refine ⟨iff_of_false ?_ (not_not_intro ⟨no_refused, labels_nodup⟩), fun n' e' h => ?_, iff_of_false ?_ ?_⟩
    · rintro ⟨r, h⟩; cases he.symm.trans h
    · obtain ⟨rfl, rfl⟩ := AsmOutcome.error.inj (he.symm.trans h)
      exact ⟨one_le, at_index, before, no_refused⟩
    · rintro ⟨b, l, h⟩; cases he.symm.trans h
    · exact fun ⟨_, _, no_error⟩ => no_error e (List.mem_of_getElem? at_index)
  · refine ⟨iff_of_false ?_ (not_not_intro ⟨accepted.no_refused, accepted.labels_nodup⟩), fun n e h => ?_,
      iff_of_true ⟨_, _, hok⟩ ⟨accepted.no_refused, accepted.labels_nodup, accepted.no_error⟩⟩
    · rintro ⟨r, h⟩; cases hok.symm.trans h
    · cases hok.symm.trans h

/-! ### Labels -/

theorem labelNames_append (pre post : List Line) : labelNames (pre ++ post) = labelNames pre ++ labelNames post := by
  induction pre with
  | nil => rfl
  | cons l pre ih => cases l <;> simp [labelNames, ih]

/-- The lines before any line of a source that assembles assemble too. -/
theorem Accepted.of_append {pre post : List Line} (h : Accepted (pre ++ post)) : Accepted pre where
  no_refused r hr := h.no_refused r (List.mem_append_left post hr)
  labels_nodup := by
    have nodup := h.labels_nodup
    rw [labelNames_append] at nodup
    exact nodup.of_append_left
  no_error e he := h.no_error e (List.mem_append_left post he)

/-- Settles O48: phase 1 of the lines before a label ends at the number of bytes they emit, and the label is entered
there. -/
theorem offsetsAgreeWithBytes : Obligations.OffsetsAgreeWithBytes := by
  intro ls bytes labels h wf
  obtain ⟨accepted, rfl, rfl⟩ := assembleLines_eq_ok h
  refine ⟨(firstPass_endOffset wf 0).trans (Nat.zero_add _), firstPass_labels_fst ls 0, fun pre post name hls => ?_⟩
  subst hls
  refine ⟨pre.flatMap Line.bytes, post.flatMap Line.bytes, _, assembleLines_of_accepted accepted.of_append, ?_, ?_⟩
  · rw [List.flatMap_append, List.flatMap_cons]; rfl
  · have pre_wf : LinesWellFormed pre := fun i hi => wf i (List.mem_append_left _ hi)
    rw [firstPass_append, firstPass_endOffset pre_wf, Nat.zero_add]
    exact List.mem_append_right _ List.mem_cons_self

theorem mem_of_mem_withoutLabels {l : Line} {ls : List Line} (h : l ∈ withoutLabels ls) : l ∈ ls := by
  induction ls with
  | nil => exact h
  | cons k ls ih =>
    cases k with
    | label name => exact List.mem_cons_of_mem _ (ih h)
    | _ => exact (List.mem_cons.mp h).elim (fun he => he ▸ List.mem_cons_self) fun ht => List.mem_cons_of_mem _ (ih ht)

theorem labelNames_withoutLabels (ls : List Line) : labelNames (withoutLabels ls) = [] := by
  induction ls with
  | nil => rfl
  | cons l ls ih => cases l <;> exact ih

/-- A label line emits nothing. -/
theorem flatMap_bytes_withoutLabels (ls : List Line) :
    (withoutLabels ls).flatMap Line.bytes = ls.flatMap Line.bytes := by
  induction ls with
  | nil => rfl
  | cons l ls ih =>
    cases l with
    | label name => exact ih
    | _ => exact congrArg (_ ++ ·) ih

theorem firstPass_labels_of_labelNames_nil {ls : List Line} (h : labelNames ls = []) (n : Nat) :
    (firstPass n ls).labels = [] := by
  rw [← firstPass_labels_fst ls n] at h
  exact List.map_eq_nil_iff.mp h

theorem Accepted.withoutLabels {ls : List Line} (h : Accepted ls) : Accepted (withoutLabels ls) where
  no_refused r hr := h.no_refused r (mem_of_mem_withoutLabels hr)
  labels_nodup := by rw [labelNames_withoutLabels]; exact List.nodup_nil
  no_error e he := h.no_error e (mem_of_mem_withoutLabels he)

/-- Settles O50: an operand token goes to `parseOperand` alone, and the label lines emit nothing. -/
theorem labelsInfluenceNoByte : Obligations.LabelsInfluenceNoByte := by
  refine ⟨fun m t o hopcode hneeds hnot => ?_, fun ls bytes labels h => ?_⟩
  · have operand_eq := (parseOperand_eq_invalidLiteral_iff t).mpr hnot
    rw [parseTokens, hopcode]
    simp only [hneeds, if_true, parseOperandLine, operand_eq]
  · obtain ⟨accepted, rfl, -⟩ := assembleLines_eq_ok h
    rw [assembleLines_of_accepted accepted.withoutLabels, flatMap_bytes_withoutLabels,
      firstPass_labels_of_labelNames_nil (labelNames_withoutLabels ls)]

end Sys2Proof.Machine
end

section
/-! Disassembly undoes assembly, and assembly undoes disassembly (46_assembler.md, section 5). -/

namespace Sys2Proof.Machine

/-! ### Instruction lines as instructions -/

/-- A well-formed line stands for an instruction of the machine: its opcode and operand, and the cells it emits. -/
theorem exists_instr_of_wellFormed {i : AsmInstruction} (h : i.wellFormed = true) :
    ∃ j : Instr, opcodeOfMnemonic i.opcode = some j.opcode ∧ i.operand = j.operand ∧ emitInstruction i = encode j := by
  obtain ⟨o, hopcode, hoperand⟩ := (wellFormed_iff i).mp h
  have operand_eq : i.operand = (decode o (i.operand.getD 0)).operand := by
    rw [operand_decode, ← hoperand]
    cases i.operand <;> rfl
  refine ⟨decode o (i.operand.getD 0), by rwa [opcode_decode], operand_eq, ?_⟩
  rw [emitInstruction_of_opcode hopcode hoperand, encode, opcode_decode, ← operand_eq]

/-- The sweep reads the cells of an instruction as its record (R167). -/
theorem sweepFrom_encode (n : Nat) (j : Instr) (rest : List Nibble) :
    sweepFrom n (encode j ++ rest) =
      ⟨n, mnemonicOf j.opcode, j.operand⟩ :: sweepFrom (n + (encode j).length) rest := by
  have operand_eq := isSome_operand j
  cases hk : j.operand with
  | none =>
    rw [hk] at operand_eq
    cases rest <;> simp [encode, hk, sweepFrom, ← operand_eq]
  | some k =>
    rw [hk] at operand_eq
    simp [encode, hk, sweepFrom, ← operand_eq]

/-- The sweep of the bytes of some lines: one record per instruction line, at its offset of phase 1. -/
theorem sweepFrom_flatMap_bytes {ls : List Line} (h : LinesWellFormed ls) (n : Nat) :
    sweepFrom n (ls.flatMap Line.bytes) = (firstPass n ls).instructions.map recordOf := by
  induction ls generalizing n with
  | nil => rfl
  | cons l ls ih =>
    have tail_wf : LinesWellFormed ls := fun i hi => h i (List.mem_cons_of_mem l hi)
    cases l with
    | instr i =>
      have i_wf := h i List.mem_cons_self
      obtain ⟨j, hopcode, hoperand, hemit⟩ := exists_instr_of_wellFormed i_wf
      have record_eq : recordOf (n, i) = ⟨n, mnemonicOf j.opcode, j.operand⟩ := by
        rw [recordOf, hopcode, hoperand]
      rw [List.flatMap_cons, Line.bytes, hemit, sweepFrom_encode, ← hemit, length_emitInstruction i_wf, ih tail_wf,
        ← record_eq]
      rfl
    | _ => exact ih tail_wf n

/-- Elements that are Nibbles are never refused (R167). -/
theorem disassemble_map_toNat (bytes : List Nibble) :
    disassemble (bytes.map BitVec.toNat) = some (sweepFrom 0 bytes) := by
  have all_small : (bytes.map BitVec.toNat).all (· < 16) = true := by
    simpa using fun b _ => b.isLt
  have mask_eq : (bytes.map BitVec.toNat).map mask = bytes := by simp [Function.comp_def]
  rw [disassemble, if_pos all_small, mask_eq]

/-- Settles O52: what a source emits is what its lines emit, and the sweep of that is their records. -/
theorem disassemblyReversesAssembly : Obligations.DisassemblyReversesAssembly := by
  intro source bytes labels h
  obtain ⟨-, rfl, -⟩ := assembleLines_eq_ok h
  rw [disassemble_map_toNat, sweepFrom_flatMap_bytes (linesWellFormed_map_classifyLine _), sourceInstructions]

/-! ### Reading a line made of tokens -/

/-- A character that is no separator, no comment sign, no label sign and no white space. -/
def isTokenChar (c : Char) : Bool :=
  c != ';' && c != ':' && c != '\n' && !isTrimmed c && !isOtherWhiteSpace c

/-- A token: a text that no rule of the tokenising decision cuts or drops. -/
def isToken (t : Text) : Bool := !t.isEmpty && t.all isTokenChar

theorem isToken_iff (t : Text) : isToken t = true ↔ t ≠ [] ∧ ∀ c ∈ t, isTokenChar c = true := by
  simp [isToken]

theorem token_ne_nil {t : Text} (h : isToken t = true) : t ≠ [] := ((isToken_iff t).mp h).1

theorem isTokenChar_of_mem {t : Text} (h : isToken t = true) {c : Char} (hc : c ∈ t) : isTokenChar c = true :=
  ((isToken_iff t).mp h).2 c hc

theorem isTokenChar_iff (c : Char) :
    isTokenChar c = true ↔ c ≠ ';' ∧ c ≠ ':' ∧ c ≠ '\n' ∧ isTrimmed c = false ∧ isOtherWhiteSpace c = false := by
  simp [isTokenChar, and_assoc]

/-- A separator of tokens is white space that is trimmed. -/
theorem separator_eq_false {c : Char} (h : isTrimmed c = false) : (c == ' ' || c == '\t') = false := by
  rw [isTrimmed, Bool.or_eq_false_iff] at h
  exact h.1

theorem dropWhile_isTrimmed_token {t : Text} (h : isToken t = true) (u : Text) :
    (t ++ u).dropWhile isTrimmed = t ++ u := by
  obtain ⟨t_ne, t_chars⟩ := (isToken_iff t).mp h
  cases t with
  | nil => exact absurd rfl t_ne
  | cons c t =>
    obtain ⟨-, -, -, not_trimmed, -⟩ := (isTokenChar_iff c).mp (t_chars c List.mem_cons_self)
    rw [List.cons_append, List.dropWhile_cons_of_neg (Bool.eq_false_iff.mp not_trimmed)]

theorem isToken_reverse {t : Text} (h : isToken t = true) : isToken t.reverse = true := by
  rw [isToken_iff] at h ⊢
  simpa using h

/-- A text that begins and ends with a token has no white space at its ends. -/
theorem trimText_eq_self {body m t u v : Text} (hm : isToken m = true) (ht : isToken t = true) (hu : body = m ++ u)
    (hv : body = v ++ t) : trimText body = body := by
  have front : body.dropWhile isTrimmed = body := by rw [hu, dropWhile_isTrimmed_token hm]
  have back : body.reverse.dropWhile isTrimmed = body.reverse := by
    rw [hv, List.reverse_append, dropWhile_isTrimmed_token (isToken_reverse ht)]
  rw [trimText, front, back, List.reverse_reverse]

theorem getLast?_token_ne_colon {t : Text} (h : isToken t = true) (v : Text) : (v ++ t).getLast? ≠ some ':' := by
  obtain ⟨t_ne, t_chars⟩ := (isToken_iff t).mp h
  intro hlast
  rw [List.getLast?_append_of_ne_nil v t_ne] at hlast
  obtain ⟨-, not_colon, -⟩ := (isTokenChar_iff ':').mp (t_chars ':' (List.mem_of_getLast? hlast))
  exact not_colon rfl

/-- A line of tokens and spaces between them is read by its tokens. -/
theorem classifyLine_of_tokens {body m t u v : Text} (hm : isToken m = true) (ht : isToken t = true)
    (hu : body = m ++ u) (hv : body = v ++ t) (hchars : ∀ c ∈ body, isTokenChar c = true ∨ c = ' ') :
    classifyLine body = parseTokens (lineTokens body) := by
  have no_comment : stripComment body = body := by
    refine List.takeWhile_eq_self_iff.mpr fun c hc => ?_
    obtain hc | rfl := hchars c hc
    · exact bne_iff_ne.mpr ((isTokenChar_iff c).mp hc).1
    · decide
  have no_other_space : ¬ body.any isOtherWhiteSpace = true := by
    rw [List.any_eq_true]
    rintro ⟨c, hc, hspace⟩
    obtain hc | rfl := hchars c hc
    · obtain ⟨-, -, -, -, not_space⟩ := (isTokenChar_iff c).mp hc
      exact Bool.eq_false_iff.mp not_space hspace
    · exact absurd hspace (by decide)
  have not_empty : ¬ body.isEmpty = true := by
    rw [List.isEmpty_iff, hu, List.append_eq_nil_iff]
    exact fun h => token_ne_nil hm h.1
  have no_colon : ¬ (body.getLast? == some ':') = true := by
    rw [beq_iff_eq, hv]
    exact getLast?_token_ne_colon ht v
  simp only [classifyLine, no_comment, trimText_eq_self hm ht hu hv, no_other_space, not_empty, no_colon,
    Bool.false_eq_true, if_false]

theorem splitWhere_eq_singleton {p : Char → Bool} {t : Text} (h : ∀ c ∈ t, p c = false) : splitWhere p t = [t] := by
  induction t with
  | nil => rfl
  | cons c t ih =>
    have head_eq := h c List.mem_cons_self
    rw [splitWhere, if_neg (Bool.eq_false_iff.mp head_eq), ih fun d hd => h d (List.mem_cons_of_mem c hd)]

theorem splitWhere_append_cons {p : Char → Bool} {m : Text} {c : Char} (h : ∀ d ∈ m, p d = false) (hc : p c = true)
    (t : Text) : splitWhere p (m ++ c :: t) = m :: splitWhere p t := by
  induction m with
  | nil => rw [List.nil_append, splitWhere, if_pos hc]
  | cons d m ih =>
    have head_eq := h d List.mem_cons_self
    rw [List.cons_append, splitWhere, if_neg (Bool.eq_false_iff.mp head_eq),
      ih fun e he => h e (List.mem_cons_of_mem d he)]

theorem token_no_separator {t : Text} (h : isToken t = true) : ∀ c ∈ t, (c == ' ' || c == '\t') = false := by
  intro c hc
  obtain ⟨-, -, -, not_trimmed, -⟩ := (isTokenChar_iff c).mp (isTokenChar_of_mem h hc)
  exact separator_eq_false not_trimmed

theorem lineTokens_one {m : Text} (hm : isToken m = true) : lineTokens m = [m] := by
  rw [lineTokens, splitWhere_eq_singleton (token_no_separator hm)]
  simp [token_ne_nil hm]

theorem lineTokens_two {m t : Text} (hm : isToken m = true) (ht : isToken t = true) :
    lineTokens (m ++ ' ' :: t) = [m, t] := by
  rw [lineTokens, splitWhere_append_cons (token_no_separator hm) rfl, splitWhere_eq_singleton (token_no_separator ht)]
  simp [token_ne_nil hm, token_ne_nil ht]

theorem classifyLine_one {m : Text} (hm : isToken m = true) : classifyLine m = parseTokens [m] := by
  rw [classifyLine_of_tokens hm hm (List.append_nil m).symm (List.nil_append m).symm
    (fun c hc => .inl (isTokenChar_of_mem hm hc)), lineTokens_one hm]

theorem classifyLine_two {m t : Text} (hm : isToken m = true) (ht : isToken t = true) :
    classifyLine (m ++ ' ' :: t) = parseTokens [m, t] := by
  have chars : ∀ c ∈ m ++ ' ' :: t, isTokenChar c = true ∨ c = ' ' := by
    intro c hc
    obtain hc | rfl | hc := by simpa using hc
    · exact .inl (isTokenChar_of_mem hm hc)
    · exact .inr rfl
    · exact .inl (isTokenChar_of_mem ht hc)
  rw [classifyLine_of_tokens hm ht rfl (List.append_cons m ' ' t) chars, lineTokens_two hm ht]

/-! ### The text of a record -/

/-- The text of a record without its line feed. -/
def recordLine (r : Record) : Text :=
  match r.operand with
  | none => r.mnemonic.toList
  | some k => r.mnemonic.toList ++ ' ' :: decimalText k

theorem recordText_eq (r : Record) : recordText r = recordLine r ++ ['\n'] := by
  obtain ⟨address, mnemonic, operand⟩ := r
  cases operand <;> rfl

theorem isToken_mnemonicOf (o : Nibble) : isToken (mnemonicOf o).toList = true := by
  revert o; decide

theorem isToken_decimalText (k : Nibble) : isToken (decimalText k) = true := by
  revert k; decide

theorem opcodeOfMnemonic_mnemonicOf (o : Nibble) : opcodeOfMnemonic (mnemonicOf o).toList = some o := by
  revert o; decide

theorem parseOperand_decimalText (k : Nibble) : parseOperand (decimalText k) = .ok k := by
  revert k; decide

theorem newline_notMem_token {t : Text} (h : isToken t = true) : '\n' ∉ t := by
  intro hc
  obtain ⟨-, -, not_newline, -⟩ := (isTokenChar_iff '\n').mp (isTokenChar_of_mem h hc)
  exact not_newline rfl

theorem newline_notMem_recordLine (n : Nat) (o : Nibble) (operand : Option Nibble) :
    '\n' ∉ recordLine ⟨n, mnemonicOf o, operand⟩ := by
  cases operand with
  | none => exact newline_notMem_token (isToken_mnemonicOf o)
  | some k =>
    have no_newline := newline_notMem_token (isToken_decimalText k)
    simpa [recordLine, no_newline] using newline_notMem_token (isToken_mnemonicOf o)

/-- The line of an instruction in the table's own spelling. -/
def tableLine (j : Instr) : Line := .instr ⟨(mnemonicOf j.opcode).toList, j.operand⟩

theorem bytes_tableLine (j : Instr) : (tableLine j).bytes = encode j :=
  emitInstruction_of_opcode (opcodeOfMnemonic_mnemonicOf j.opcode) (isSome_operand j)

theorem classifyLine_recordLine (n : Nat) (j : Instr) :
    classifyLine (recordLine ⟨n, mnemonicOf j.opcode, j.operand⟩) = tableLine j := by
  have mnemonic_token := isToken_mnemonicOf j.opcode
  have opcode_eq := opcodeOfMnemonic_mnemonicOf j.opcode
  have operand_eq := isSome_operand j
  cases hk : j.operand with
  | none =>
    rw [hk] at operand_eq
    rw [recordLine, classifyLine_one mnemonic_token, parseTokens, opcode_eq, tableLine, hk]
    simp [← operand_eq]
  | some k =>
    rw [hk] at operand_eq
    rw [recordLine, classifyLine_two mnemonic_token (isToken_decimalText k), parseTokens, opcode_eq, tableLine, hk]
    simp [← operand_eq, parseOperandLine, parseOperand_decimalText]

/-- The text of the records of a program's cells is one line per instruction, and an empty line after the last line
feed. -/
theorem classifyLine_sweep (is : List Instr) (n : Nat) :
    (sourceLines ((sweepFrom n (is.flatMap encode)).flatMap recordText)).map classifyLine =
      is.map tableLine ++ [.blank] := by
  induction is generalizing n with
  | nil => rfl
  | cons j is ih =>
    rw [List.flatMap_cons, sweepFrom_encode, List.flatMap_cons, recordText_eq, List.append_assoc,
      List.singleton_append, sourceLines_cons_line _ _ (newline_notMem_recordLine n j.opcode j.operand),
      List.map_cons, classifyLine_recordLine, ih, List.map_cons, List.cons_append]

theorem labelNames_map_tableLine (is : List Instr) : labelNames (is.map tableLine ++ [Line.blank]) = [] := by
  induction is with
  | nil => rfl
  | cons j is ih => exact ih

theorem flatMap_bytes_map_tableLine (is : List Instr) :
    (is.map tableLine ++ [Line.blank]).flatMap Line.bytes = is.flatMap encode := by
  induction is with
  | nil => rfl
  | cons j is ih =>
    rw [List.map_cons, List.cons_append, List.flatMap_cons, bytes_tableLine, ih, List.flatMap_cons]

theorem accepted_map_tableLine (is : List Instr) : Accepted (is.map tableLine ++ [.blank]) where
  no_refused r := by simp [tableLine]
  labels_nodup := by rw [labelNames_map_tableLine]; exact List.nodup_nil
  no_error e := by simp [tableLine]

/-- Settles O53: a stream that decodes is the cells of its instructions, and the text of their records is read back as
these instructions' lines. -/
theorem assemblyReversesDisassembly : Obligations.AssemblyReversesDisassembly := by
  rintro bytes ⟨is, hdecode⟩
  obtain rfl := encodeOfDecodedStream bytes is hdecode
  rw [assemble, classifyLine_sweep, assembleLines_of_accepted (accepted_map_tableLine is),
    flatMap_bytes_map_tableLine, firstPass_labels_of_labelNames_nil (labelNames_map_tableLine is)]

end Sys2Proof.Machine
end

section
/-! From text to fetch: an assembled program, loaded, is what a cycle reads (46_assembler.md sections 3 to 5,
20_memory.md section 1, 42_cpu_cycle.md section 2). -/

namespace Sys2Proof.Machine

/-- An instruction line's bytes stand in the stream at its offset of phase 1 (R162). -/
theorem bytes_split_of_mem_instructions {ls : List Line} (h : LinesWellFormed ls) {n : Nat}
    {entry : Nat × AsmInstruction} (hmem : entry ∈ (firstPass n ls).instructions) :
    entry.2.wellFormed = true ∧
      ∃ pre post, ls.flatMap Line.bytes = pre ++ emitInstruction entry.2 ++ post ∧ entry.1 = n + pre.length := by
  induction ls generalizing n with
  | nil => cases hmem
  | cons l ls ih =>
    have tail_wf : LinesWellFormed ls := fun i hi => h i (List.mem_cons_of_mem l hi)
    cases l with
    | instr i =>
      have i_wf := h i List.mem_cons_self
      obtain rfl | tail_mem := List.mem_cons.mp hmem
      · exact ⟨i_wf, [], ls.flatMap Line.bytes, rfl, rfl⟩
      · obtain ⟨entry_wf, pre, post, bytes_eq, offset_eq⟩ := ih tail_wf tail_mem
        refine ⟨entry_wf, emitInstruction i ++ pre, post, ?_, ?_⟩
        · rw [List.flatMap_cons, bytes_eq, Line.bytes]; simp only [List.append_assoc]
        · rw [offset_eq, List.length_append, length_emitInstruction i_wf, Nat.add_assoc]
    | _ => exact ih tail_wf hmem

/-- A loaded Nibble is read back at its index (R34). -/
theorem State.memRead_loadProgram_of_getElem? (s : State) {bytes : List Nibble} {a : Nibble} {v : Nibble}
    (h : bytes[a.toNat]? = some v) : (s.loadProgram (bytes.map BitVec.toNat)).memRead a = v := by
  obtain ⟨a_lt, -⟩ := List.getElem?_eq_some_iff.mp h
  have read_eq := s.mem.read_loadProgram (bytes.map BitVec.toNat) a
  rw [if_pos (by rwa [List.length_map]), List.getD_eq_getElem?_getD, List.getElem?_map, h] at read_eq
  exact read_eq.trans (mask_toNat v)

/-- A fetch in a loaded stream of at most 16 cells reads the instruction whose cells stand at `PC`. -/
theorem State.fetchInstr_loadProgram (s : State) (pre post : List Nibble) (j : Instr)
    (h : (pre ++ encode j ++ post).length ≤ 16) :
    ({ s.loadProgram ((pre ++ encode j ++ post).map BitVec.toNat) with pc := mask pre.length }).fetchInstr = j := by
  have getElem?_at (m : Nat) : (pre ++ encode j ++ post)[pre.length + m]? = (encode j ++ post)[m]? := by
    rw [List.append_assoc, List.getElem?_append_right (Nat.le_add_right _ m), Nat.add_sub_cancel_left]
  rw [List.length_append, List.length_append] at h
  have toNat_pc : (mask pre.length).toNat = pre.length := by
    have one_le : 1 ≤ (encode j).length := Nat.le_add_left 1 _
    rw [toNat_mask, Nat.mod_eq_of_lt (by omega)]
  have opcode_eq : (s.loadProgram ((pre ++ encode j ++ post).map BitVec.toNat)).memRead (mask pre.length) = j.opcode :=
    s.memRead_loadProgram_of_getElem? (by rw [toNat_pc]; exact getElem?_at 0)
  rw [State.fetchInstr_eq]
  refine (congrArg₂ decode opcode_eq rfl).trans (decode_opcode j fun k hk => ?_)
  have encode_eq : encode j = [j.opcode, k] := by rw [encode, hk]; rfl
  have toNat_next : (mask pre.length + 1).toNat = pre.length + 1 := by
    have length_eq : (encode j).length = 2 := by rw [encode_eq]; rfl
    rw [toNat_add_one, toNat_pc, Nat.mod_eq_of_lt (by omega)]
  exact s.memRead_loadProgram_of_getElem? (by rw [toNat_next, getElem?_at, encode_eq]; rfl)

/-- Settles O54: a line's cells stand at its offset in the stream, and the loaded stream is read back cell by cell. -/
theorem assembledProgramIsWhatIsFetched : Obligations.AssembledProgramIsWhatIsFetched := by
  intro source bytes labels s h fits entry hentry
  obtain ⟨-, rfl, -⟩ := assembleLines_eq_ok h
  obtain ⟨entry_wf, pre, post, bytes_eq, offset_eq⟩ :=
    bytes_split_of_mem_instructions (linesWellFormed_map_classifyLine _) hentry
  obtain ⟨j, hopcode, hoperand, hemit⟩ := exists_instr_of_wellFormed entry_wf
  rw [hemit] at bytes_eq
  rw [bytes_eq] at fits ⊢
  rw [offset_eq, Nat.zero_add, s.fetchInstr_loadProgram pre post j fits]
  exact ⟨hopcode, hoperand.symm⟩

end Sys2Proof.Machine
end
